-- ==== Sys2Proof/Word.lean ====
section
/-! DEFINITION. The word types of 00_scope.md (R8, R10, R11) and the base64 alphabet a command names (R92). -/

namespace Sys2Proof

/-- An SM3 word, a register value or a command word (R10, R21, R90). -/
abbrev Word := BitVec 32

/-- A byte (R11). -/
abbrev Byte := BitVec 8

/-- The base64 alphabet field ALPH of a command word (R92, R231). -/
inductive Alphabet where
  | std
  | url
deriving DecidableEq, Repr

end Sys2Proof
end

