-- ==== Sys2Proof/Machine/Bits.lean ====
section
/-! DEFINITION. The bit, byte-order and byte-sequence helpers of 00_scope.md (R10 to R12). -/

namespace Sys2Proof.Machine

/-- `rotl(x, n)` of R10: with r = n mod 32, (x << r) | (x >> (32 - r)); for r = 0 the second term is 0. -/
def rotl (x : Word) (n : Nat) : Word := (x <<< (n % 32)) ||| (x >>> (32 - n % 32))

/-- `be32(s, i)` of R12: four bytes, the most significant first. -/
def be32 (s : List Byte) (i : Nat) : Word :=
  s.getD i 0 ++ s.getD (i + 1) 0 ++ s.getD (i + 2) 0 ++ s.getD (i + 3) 0

/-- `bytes32(w)` of R12. -/
def bytes32 (w : Word) : List Byte :=
  [w.extractLsb' 24 8, w.extractLsb' 16 8, w.extractLsb' 8 8, w.extractLsb' 0 8]

/-- `bytes64(x)` of R12. -/
def bytes64 (x : BitVec 64) : List Byte :=
  [x.extractLsb' 56 8, x.extractLsb' 48 8, x.extractLsb' 40 8, x.extractLsb' 32 8,
   x.extractLsb' 24 8, x.extractLsb' 16 8, x.extractLsb' 8 8, x.extractLsb' 0 8]

/-- The byte sequence `s ^ b^|s|` of R11: every byte XORed with `b`. -/
def xorAll (b : Byte) (s : List Byte) : List Byte := s.map (· ^^^ b)

/-- `0x00^k` of R11. -/
def zeros (k : Nat) : List Byte := List.replicate k 0#8

end Sys2Proof.Machine
end

