-- ==== Sys2Proof/Config.lean ====
section
/-! DEFINITION. What an implementation fixes. No value of this hardware is left open inside a command, so there is no
free value here: the one parameter is DMEM_SIZE (R9, U6 of 93_implementation_defined.md). -/

namespace Sys2Proof

/-- The parameter "the model takes as an argument" (R9): the size of DMEM in bytes. -/
structure Config where
  dmemSize : Nat
deriving DecidableEq, Repr

/-- R9: "with the value 65536 for this hardware". -/
def Config.thisHardware : Config := { dmemSize := 65536 }

/-- R9: "the constraint 256 ≤ DMEM_SIZE ≤ 2^31". -/
abbrev Config.Legal (c : Config) : Prop := 256 ≤ c.dmemSize ∧ c.dmemSize ≤ 2 ^ 31

end Sys2Proof
end

