-- ==== Sys2Proof/Syntax.lean ====
section
/-! DEFINITION. The eleven commands (one constructor per row of spec/opcode_table.json, R94) and the raw fields of a
command word (R90). -/

namespace Sys2Proof

/-- The commands of R94. Their operands are registers (R95), so only the two base64 commands carry a field. -/
inductive Instr where
  | init
  | update
  | finish
  | digest
  | compress
  | hmacInit
  | hmacUpdate
  | hmacFinish
  | hmac
  | b64Enc (alph : Alphabet)
  | b64Dec (alph : Alphabet)
deriving DecidableEq, Repr

/-- The fields of a command word (R90): OP = bits 3:0, ALPH = bit 4, RES = bits 31:5. -/
structure Fields where
  op : BitVec 4
  alph : BitVec 1
  res : BitVec 27
deriving DecidableEq, Repr

end Sys2Proof
end

