-- ==== Sys2Proof/WellFormed.lean ====
section
/-! DEFINITION. Which command-word fields are a legal command word (R93, R94, R96, R97), one named check each. -/

namespace Sys2Proof

/-- Why a command word is illegal (R97). The decoder names the first cause in the order of R96. -/
inductive Illegal where
  /-- RES ≠ 0 (R93). -/
  | resNonzero
  /-- OP is 0x0 or 0xC..0xF (R94). -/
  | opReserved
  /-- ALPH = 1 with an OP other than 0xA and 0xB (R92). -/
  | alphNotBase64
deriving DecidableEq, Repr

/-- R93: RES must be 0. -/
def Fields.resOk (f : Fields) : Bool := f.res == 0#27

/-- R94: OP names a command. -/
def Fields.opOk (f : Fields) : Bool := decide (1 ≤ f.op.toNat ∧ f.op.toNat ≤ 11)

/-- R92: ALPH is 0 except for the base64 commands 0xA and 0xB. -/
def Fields.alphOk (f : Fields) : Bool := f.alph == 0#1 || f.op == 0xA#4 || f.op == 0xB#4

/-- The fields of one of the 13 legal command words (R94, R97). -/
def Fields.wf (f : Fields) : Bool := f.resOk && f.opOk && f.alphOk

end Sys2Proof
end

