-- ==== Sys2Proof/Decode.lean ====
section
/-! DEFINITION. Decoding a command word (R96), encoding a command (R90, R94), and disassembly (R102). -/

namespace Sys2Proof

/-- The fields of a command word (R90, R91, R92, R93). -/
def fieldsOf (c : Word) : Fields :=
  { op := c.extractLsb' 0 4, alph := c.extractLsb' 4 1, res := c.extractLsb' 5 27 }

/-- The command word with these fields (R90). -/
def wordOf (f : Fields) : Word := f.res ++ f.alph ++ f.op

/-- A command whose ALPH must be 0 (R92, R97). -/
def plainCommand (alph : BitVec 1) (i : Instr) : Except Illegal Instr :=
  if alph = 0#1 then .ok i else .error .alphNotBase64

/-- R92: 0 selects the standard alphabet, 1 the URL-safe alphabet. -/
def alphabetOf (alph : BitVec 1) : Alphabet := if alph = 0#1 then .std else .url

/-- R92, the other way. -/
def alphabetBit : Alphabet → BitVec 1
  | .std => 0#1
  | .url => 1#1

/-- The decode procedure of R96 over the fields, its checks in the order it lists them. -/
def decodeFields (f : Fields) : Except Illegal Instr :=
  if f.res ≠ 0#27 then .error .resNonzero
  else match f.op.toNat with
    | 1 => plainCommand f.alph .init
    | 2 => plainCommand f.alph .update
    | 3 => plainCommand f.alph .finish
    | 4 => plainCommand f.alph .digest
    | 5 => plainCommand f.alph .compress
    | 6 => plainCommand f.alph .hmacInit
    | 7 => plainCommand f.alph .hmacUpdate
    | 8 => plainCommand f.alph .hmacFinish
    | 9 => plainCommand f.alph .hmac
    | 10 => .ok (.b64Enc (alphabetOf f.alph))
    | 11 => .ok (.b64Dec (alphabetOf f.alph))
    | _ => .error .opReserved

/-- R96: every 32-bit word is one of the 13 legal command words or illegal, with the cause's name. -/
def decode (c : Word) : Except Illegal Instr := decodeFields (fieldsOf c)

/-- OP of a command (R94). -/
def opcode : Instr → BitVec 4
  | .init => 0x1#4
  | .update => 0x2#4
  | .finish => 0x3#4
  | .digest => 0x4#4
  | .compress => 0x5#4
  | .hmacInit => 0x6#4
  | .hmacUpdate => 0x7#4
  | .hmacFinish => 0x8#4
  | .hmac => 0x9#4
  | .b64Enc _ => 0xA#4
  | .b64Dec _ => 0xB#4

/-- ALPH of a command (R94). -/
def alphField : Instr → BitVec 1
  | .b64Enc a => alphabetBit a
  | .b64Dec a => alphabetBit a
  | .init | .update | .finish | .digest | .compress | .hmacInit | .hmacUpdate | .hmacFinish | .hmac => 0#1

/-- The fields of a command's word (R90, R94). -/
def encodeFields (i : Instr) : Fields := { op := opcode i, alph := alphField i, res := 0#27 }

/-- The command word of a command (R94). -/
def encode (i : Instr) : Word := wordOf (encodeFields i)

/-- The command of an instruction whose bits are `w`, of which the table gives `nbits`: the whole of it is one
32-bit command word (R90), bit 0 the least significant. -/
def decodeTableWord (nbits w : Nat) : Option Instr :=
  if w % 2 ^ nbits < 2 ^ 32 then
    match decode (BitVec.ofNat 32 (w % 2 ^ nbits)) with
    | .ok i => some i
    | .error _ => none
  else none

/-- The mnemonic of a command as R102 writes it, with the suffix .STD or .URL for the base64 commands. -/
def mnemonic : Instr → String
  | .init => "INIT"
  | .update => "UPDATE"
  | .finish => "FINISH"
  | .digest => "DIGEST"
  | .compress => "COMPRESS"
  | .hmacInit => "HMAC_INIT"
  | .hmacUpdate => "HMAC_UPDATE"
  | .hmacFinish => "HMAC_FINISH"
  | .hmac => "HMAC"
  | .b64Enc .std => "B64_ENC.STD"
  | .b64Enc .url => "B64_ENC.URL"
  | .b64Dec .std => "B64_DEC.STD"
  | .b64Dec .url => "B64_DEC.URL"

/-- One hexadecimal digit (R14). -/
def hexDigit (d : BitVec 4) : String :=
  match d.toNat with
  | 0 => "0" | 1 => "1" | 2 => "2" | 3 => "3" | 4 => "4" | 5 => "5" | 6 => "6" | 7 => "7"
  | 8 => "8" | 9 => "9" | 10 => "A" | 11 => "B" | 12 => "C" | 13 => "D" | 14 => "E" | _ => "F"

/-- The eight hexadecimal digits of a word (R14). -/
def hexWord (c : Word) : String :=
  hexDigit (c.extractLsb' 28 4) ++ hexDigit (c.extractLsb' 24 4) ++ hexDigit (c.extractLsb' 20 4) ++
  hexDigit (c.extractLsb' 16 4) ++ hexDigit (c.extractLsb' 12 4) ++ hexDigit (c.extractLsb' 8 4) ++
  hexDigit (c.extractLsb' 4 4) ++ hexDigit (c.extractLsb' 0 4)

/-- Disassembly (R102). -/
def disassemble (c : Word) : String :=
  match decode c with
  | .ok i => mnemonic i
  | .error _ => "ILLEGAL(0x" ++ hexWord c ++ ")"

end Sys2Proof
end

