-- ==== Sys2Proof/Machine/HostSyntax.lean ====
section
/-! DEFINITION. What the host can do to the machine: the registers of its window (R21), one host step (R20, R65, R66),
and the host program lines of R100 and R101 with their expansions. -/

namespace Sys2Proof.Machine

/-- The registers of the window (R21). -/
inductive Reg where
  | cmd
  | status
  | src
  | len
  | dst
  | kadr
  | klen
  | outlen
  | v (i : Fin 8)
  | nblkLo
  | nblkHi
  | blen
deriving DecidableEq, Repr

/-- One host step: one access (R20, R65, R66), or one round of the POLL loop (R101). A register access names its
width in bits and its offset in the window; a DMEM access names the DMEM address (R61). -/
inductive HostStep where
  | readReg (width : Nat) (off : BitVec 8)
  | writeReg (width : Nat) (off : BitVec 8) (value : Word)
  | readMem (a : Nat)
  | writeMem (a : Nat) (b : Byte)
  | poll
deriving DecidableEq, Repr

/-- Who moves next (R20, R74): the host, the engine, or the reset input (R300). -/
inductive Turn where
  | host
  | engine
  | reset
deriving DecidableEq, Repr

/-- A line of a host program (R100, R101). -/
inductive HostLine where
  | wr (r : Reg) (value : Word)
  | rd (r : Reg)
  | sb (a : Nat) (bytes : List Byte)
  | ss (a : Nat) (text : List Char)
  | lb (a n : Nat)
  | poll
  | run (i : Instr)
deriving DecidableEq, Repr

/-- The register at an offset of the window, none at a reserved one (R21, R31). -/
def regAt (off : BitVec 8) : Option Reg :=
  match off.toNat with
  | 0x00 => some .cmd
  | 0x04 => some .status
  | 0x08 => some .src
  | 0x0C => some .len
  | 0x10 => some .dst
  | 0x14 => some .kadr
  | 0x18 => some .klen
  | 0x1C => some .outlen
  | 0x20 => some (.v 0)
  | 0x24 => some (.v 1)
  | 0x28 => some (.v 2)
  | 0x2C => some (.v 3)
  | 0x30 => some (.v 4)
  | 0x34 => some (.v 5)
  | 0x38 => some (.v 6)
  | 0x3C => some (.v 7)
  | 0x40 => some .nblkLo
  | 0x44 => some .nblkHi
  | 0x48 => some .blen
  | _ => none

/-- The offset of a register (R21). -/
def offsetOf : Reg → BitVec 8
  | .cmd => 0x00#8
  | .status => 0x04#8
  | .src => 0x08#8
  | .len => 0x0C#8
  | .dst => 0x10#8
  | .kadr => 0x14#8
  | .klen => 0x18#8
  | .outlen => 0x1C#8
  | .v i => BitVec.ofNat 8 (0x20 + 4 * i.val)
  | .nblkLo => 0x40#8
  | .nblkHi => 0x44#8
  | .blen => 0x48#8

/-- R65: a register access is 32 bits wide at a multiple of 4. -/
def regAccessOk (width : Nat) (off : BitVec 8) : Bool := width == 32 && off.toNat % 4 == 0

/-- The byte writes of SB (R100): one host step per byte, in ascending address order. -/
def expandBytes (a : Nat) : List Byte → List HostStep
  | [] => []
  | b :: bs => .writeMem a b :: expandBytes (a + 1) bs

/-- The byte reads of LB (R100). -/
def expandReads (a : Nat) : Nat → List HostStep
  | 0 => []
  | n + 1 => .readMem a :: expandReads (a + 1) n

/-- The host steps of a line (R100, R101). An SS line writes the ASCII code of each character (R14); for a character that is not
ASCII the spec gives no code, and the model writes its code point modulo 256 (DESIGN CHOICE, notes/assumptions/20.md). -/
def expandLine : HostLine → List HostStep
  | .wr r value => [.writeReg 32 (offsetOf r) value]
  | .rd r => [.readReg 32 (offsetOf r)]
  | .sb a bytes => expandBytes a bytes
  | .ss a text => expandBytes a (text.map fun ch => BitVec.ofNat 8 ch.toNat)
  | .lb a n => expandReads a n
  | .poll => [.poll]
  | .run i => [.writeReg 32 (offsetOf .cmd) (encode i), .poll]

/-- The host steps of a program, line by line (R100). -/
def expandProgram : List HostLine → List HostStep
  | [] => []
  | l :: ls => expandLine l ++ expandProgram ls

end Sys2Proof.Machine
end

