-- ==== Sys2Proof/Machine/State.lean ====
section
/-! DEFINITION. The machine's state (10_state.md), the error codes of a command (R272), the reasons a step can stop
(R280, R281), and the state after reset (R44). -/

namespace Sys2Proof.Machine

/-- The phase of the context, STATUS.CTX (R24). -/
inductive Phase where
  | idle
  | hashActive
  | hashDone
  | hmacInner
  | hmacDone
deriving DecidableEq, Repr

/-- The error codes of R272, which STATUS.ECODE reports. They are no faults: the machine goes on (R274). -/
inductive ErrorCode where
  | illegal
  | state
  | length
  | range
  | decodeChar
  | decodeLen
  | overlap
deriving DecidableEq, Repr

/-- Why the machine stops (R280). Both err toward unprovable: the model stops where the hardware returns some value. -/
inductive Fault where
  /-- READ_UNWRITTEN (R62, R66, R280): raised by a command, or by a host read, that reads a DMEM byte nothing has
  written. SAFE: the hardware goes on with some value. -/
  | readUnwritten
  /-- HAZARD_DMEM_BUSY (R280, R310): raised by a host DMEM access while BUSY = 1. SAFE: the hardware goes on with an
  unspecified result. -/
  | hazardDmemBusy
deriving DecidableEq, Repr

/-- Why the model has no step (R281). -/
inductive Refusal where
  /-- A command the model gives no meaning. Raised by no arm of `exec`. SAFE: nothing is claimed of it. -/
  | notModelled (mnemonic : String)
  /-- Raised by a host register access that is not 32 bits wide at a multiple of 4 (R65, R281). SAFE: the spec does
  not specify its effect and the model has no step for it. -/
  | registerAccess
  /-- Raised by a host DMEM access at an address of DMEM_SIZE or more (R66, R281). SAFE: as above. -/
  | dmemAddress
deriving DecidableEq, Repr

/-- A chaining value: eight words (R120, R33). -/
structure Chain where
  v0 : Word
  v1 : Word
  v2 : Word
  v3 : Word
  v4 : Word
  v5 : Word
  v6 : Word
  v7 : Word
deriving DecidableEq, Repr

/-- The hash part of the context, the source's HashState (R32): chaining value V (R33), block counter NBLK (R34) and
pending buffer BUF (R35). BLEN is the length of BUF: R35 models BUF as "a byte sequence of length exactly BLEN"
(DEDUCED, notes/assumptions/8.md). -/
structure HashState where
  v : Chain
  nblk : BitVec 64
  buf : List Byte
deriving DecidableEq, Repr

/-- DMEM (R42, R61) as a list of (address, byte), addresses strictly rising: a listed byte is written, an unlisted one
unwritten. -/
abbrev Memory := List Host.Cell

/-- The canonical form of a memory: addresses strictly rising. An unlisted byte has no value, so no entry can equal
what an unlisted address reads as. -/
abbrev Memory.wf (m : Memory) : Prop := m.Pairwise (fun x y => x.1 < y.1)

/-- Everything the spec gives the machine (10_state.md), and the model's own four fields at the end. -/
structure State where
  /-- The latch of the accepted command word (R38). -/
  cmdl : Word
  /-- STATUS.BUSY (R23, R38). -/
  busy : Bool
  /-- STATUS.ERR (R23). -/
  err : Bool
  /-- STATUS.ECODE (R23, R272). -/
  ecode : BitVec 4
  /-- STATUS.CTX (R24, R37). -/
  ctx : Phase
  /-- STATUS.WDROP (R25). -/
  wdrop : Bool
  /-- Source address (R26). -/
  src : Word
  /-- Source length (R26). -/
  len : Word
  /-- Destination address (R26). -/
  dst : Word
  /-- HMAC key address (R26). -/
  kadr : Word
  /-- HMAC key length (R26). -/
  klen : Word
  /-- Bytes written by the last command (R27). -/
  outlen : Word
  /-- V, NBLK, BUF and BLEN of the context (R32 to R35). -/
  hash : HashState
  /-- The key block KB, 64 bytes (R36). -/
  kb : List Byte
  /-- DMEM (R42). -/
  mem : Memory
  /-- The fault record (R43). -/
  faults : List Fault
  /-- The parameter DMEM_SIZE (R9); no step changes it (notes/assumptions/6.md). -/
  cfg : Config
  /-- The host steps still to come, oldest first: host state (R40, R100; notes/assumptions/2.md). -/
  host : List HostStep
  /-- The coming turns, next first (R74; notes/assumptions/1.md). -/
  sched : List Turn
  /-- The value the host's last read returned (R100; notes/assumptions/3.md). -/
  rdata : Option Word
deriving DecidableEq, Repr

/-- Eight zero words, V after reset (R44) and after zeroisation (R212). -/
def Chain.zero : Chain := ⟨0, 0, 0, 0, 0, 0, 0, 0⟩

/-- The hash part of the context after reset (R44) and after zeroisation (R212). -/
def HashState.zero : HashState := { v := Chain.zero, nblk := 0, buf := [] }

/-- The machine right after power-on reset (R44, R300, R301): every register and context field at its value of R44,
DMEM unwritten, the fault record empty, DMEM_SIZE that of this hardware (R9). -/
def State.reset : State :=
  { cmdl := 0, busy := false, err := false, ecode := 0, ctx := .idle, wdrop := false,
    src := 0, len := 0, dst := 0, kadr := 0, klen := 0, outlen := 0,
    hash := HashState.zero, kb := List.replicate 64 0#8, mem := [], faults := [],
    cfg := Config.thisHardware, host := [], sched := [], rdata := none }

end Sys2Proof.Machine
end

