-- ==== Sys2Proof/Machine/Codec.lean ====
section
/-! DEFINITION. The base64 tables, encoder and decoder of 43_base64.md, as pure functions. -/

namespace Sys2Proof.Machine

/-- The pad character `=` (R231). -/
def padChar : Byte := 0x3D

/-- The sentinel of the decode ROM (R233). -/
def sentinel : Byte := 77

/-- The code of value 62 (R231). -/
def char62 : Alphabet → Byte
  | .std => 0x2B
  | .url => 0x2D

/-- The code of value 63 (R231). -/
def char63 : Alphabet → Byte
  | .std => 0x2F
  | .url => 0x5F

/-- The encode ROM ENC_A[v] (R231, R232). -/
def encRom (alph : Alphabet) (v : BitVec 6) : Byte :=
  if v.toNat ≤ 25 then BitVec.ofNat 8 (0x41 + v.toNat)
  else if v.toNat ≤ 51 then BitVec.ofNat 8 (0x61 + (v.toNat - 26))
  else if v.toNat ≤ 61 then BitVec.ofNat 8 (0x30 + (v.toNat - 52))
  else if v.toNat = 62 then char62 alph
  else char63 alph

/-- The decode ROM DEC_A[c] (R233): a value 0..63, or the sentinel 77. -/
def decRom (alph : Alphabet) (c : Byte) : Byte :=
  if 0x41 ≤ c.toNat ∧ c.toNat ≤ 0x5A then BitVec.ofNat 8 (c.toNat - 0x41)
  else if 0x61 ≤ c.toNat ∧ c.toNat ≤ 0x7A then BitVec.ofNat 8 (c.toNat - 0x61 + 26)
  else if 0x30 ≤ c.toNat ∧ c.toNat ≤ 0x39 then BitVec.ofNat 8 (c.toNat - 0x30 + 52)
  else if c = char62 alph then 62
  else if c = char63 alph then 63
  else sentinel

/-- The padding of a group with `k` missing bytes (R240): `=` in the standard alphabet, nothing in the URL-safe one. -/
def groupPad (alph : Alphabet) (k : Nat) : List Byte :=
  match alph with
  | .std => List.replicate k padChar
  | .url => []

/-- The four characters of a 24-bit group, most significant first (R240). -/
def groupChars (alph : Alphabet) (x : BitVec 24) : List Byte :=
  [encRom alph (x.extractLsb' 18 6), encRom alph (x.extractLsb' 12 6),
   encRom alph (x.extractLsb' 6 6), encRom alph (x.extractLsb' 0 6)]

/-- B64ENC(b, A) (R240): groups of three bytes; a last group of r bytes gives r + 1 characters and 3 - r pads. -/
def b64Encode (alph : Alphabet) : List Byte → List Byte
  | [] => []
  | [a] => (groupChars alph (a ++ 0#8 ++ 0#8)).take 2 ++ groupPad alph 2
  | [a, b] => (groupChars alph (a ++ b ++ 0#8)).take 3 ++ groupPad alph 1
  | a :: b :: c :: rest => groupChars alph (a ++ b ++ c) ++ b64Encode alph rest

/-- The encoded length of n bytes (R241). -/
def encodedLength (alph : Alphabet) (n : Nat) : Nat :=
  match alph with
  | .std => 4 * ((n + 2) / 3)
  | .url => 4 * (n / 3) + (match n % 3 with | 0 => 0 | 1 => 2 | _ => 3)

/-- The non-padding part of a text: the text without its trailing run of `=` (R250). -/
def nonPadding (t : List Byte) : List Byte := (t.reverse.dropWhile (· == padChar)).reverse

/-- The sextet of a valid character: its ROM value, which is below 64. -/
def sextet (alph : Alphabet) (c : Byte) : BitVec 6 := (decRom alph c).setWidth 6

/-- The three bytes of a group of four sextets (R252). -/
def groupBytes (p q r s : BitVec 6) : List Byte :=
  let x : BitVec 24 := p ++ q ++ r ++ s
  [x.extractLsb' 16 8, x.extractLsb' 8 8, x.extractLsb' 0 8]

/-- The unpacking loop of R252: a last group of r characters gives r - 1 bytes, the missing sextets 0. -/
def unpack (alph : Alphabet) : List Byte → List Byte
  | p :: q :: r :: s :: rest =>
    groupBytes (sextet alph p) (sextet alph q) (sextet alph r) (sextet alph s) ++ unpack alph rest
  | [p, q, r] => (groupBytes (sextet alph p) (sextet alph q) (sextet alph r) 0).take 2
  | [p, q] => (groupBytes (sextet alph p) (sextet alph q) 0 0).take 1
  | [_] => []
  | [] => []

/-- B64DEC(t, A) (R250 to R252): the bytes, or DECODE_CHAR, or DECODE_LEN. -/
def b64Decode (alph : Alphabet) (t : List Byte) : Except ErrorCode (List Byte) :=
  if (nonPadding t).any (fun c => decRom alph c == sentinel) then .error .decodeChar
  else if (nonPadding t).length % 4 = 1 then .error .decodeLen
  else .ok (unpack alph (nonPadding t))

/-- The decoded length of a valid text whose non-padding part has n characters (R253). -/
def decodedLength (n : Nat) : Nat :=
  3 * (n / 4) + (match n % 4 with | 2 => 1 | 3 => 2 | _ => 0)

end Sys2Proof.Machine
end

