-- ==== Sys2Proof/Machine/Ops.lean ====
section
/-! DEFINITION. The named operations over DMEM and over the state: reading, writing and unwriting bytes (R62, R63, R301),
`complete(n)` (R273) and `raise Error(code)` (R274), the one shared operation an error takes. There is no return from an
error (R276): the next command's completion overwrites STATUS. -/

namespace Sys2Proof.Machine

/-- The value of DMEM byte `a`, none if it is unwritten (R42). -/
def Memory.readByte (m : Memory) (a : Nat) : Option Byte :=
  match m with
  | [] => none
  | c :: cs => if c.1 = a then some c.2 else Memory.readByte cs a

/-- DMEM byte `a` written with `b` (R63, R66); the canonical form is kept. -/
def Memory.writeByte (m : Memory) (a : Nat) (b : Byte) : Memory :=
  match m with
  | [] => [(a, b)]
  | c :: cs =>
    if a < c.1 then (a, b) :: c :: cs
    else if c.1 = a then (a, b) :: cs
    else c :: Memory.writeByte cs a b

/-- `MemRead(a, n)` (R62): the n bytes in ascending address order; none if one of them is unwritten. -/
def Memory.readBytes (m : Memory) (a : Nat) : Nat → Option (List Byte)
  | 0 => some []
  | n + 1 =>
    match m.readByte a, Memory.readBytes m (a + 1) n with
    | some b, some bs => some (b :: bs)
    | _, _ => none

/-- `MemWrite(a, |s|, s)` (R63): the bytes written in ascending address order. -/
def Memory.writeBytes (m : Memory) (a : Nat) : List Byte → Memory
  | [] => m
  | b :: bs => Memory.writeBytes (m.writeByte a b) (a + 1) bs

/-- Every byte of `[a, a + n)` becomes unwritten (R301). -/
def Memory.unwrite (m : Memory) (a n : Nat) : Memory :=
  m.filter fun c => !(decide (a ≤ c.1 ∧ c.1 < a + n))

/-- The ECODE of an error (R272). -/
def ErrorCode.code : ErrorCode → BitVec 4
  | .illegal => 1
  | .state => 2
  | .length => 3
  | .range => 4
  | .decodeChar => 5
  | .decodeLen => 6
  | .overlap => 7

/-- `complete(n)` (R273). -/
def complete (n : Nat) (s : State) : State :=
  { s with outlen := BitVec.ofNat 32 n, err := false, ecode := 0, busy := false }

/-- `raise Error(code)` (R274): STATUS and OUTLEN, and nothing else. -/
def raiseError (e : ErrorCode) (s : State) : State :=
  { s with outlen := 0, err := true, ecode := e.code, busy := false }

/-- A command that goes on with bytes it read (R62): an unwritten byte among them is the fault READ_UNWRITTEN. -/
def withBytes (bytes : Option (List Byte)) (k : List Byte → Host.Outcome State Fault Refusal) :
    Host.Outcome State Fault Refusal :=
  match bytes with
  | none => .fault .readUnwritten
  | some bs => k bs

/-- A fault put into the fault record, a set that is never cleared (R43). -/
def recordFault (f : Fault) (s : State) : State :=
  { s with faults := if f ∈ s.faults then s.faults else s.faults ++ [f] }

/-- ZEROIZE() (R212). -/
def zeroize (s : State) : State := { s with kb := zeros 64, hash := HashState.zero }

end Sys2Proof.Machine
end

