-- ==== Sys2Proof/Machine/Operands.lean ====
section
/-! DEFINITION. The operand forms (R95): the ranges (SRC, LEN), (KADR, KLEN) and (DST, n), their check (R64), their
overlap (R260) and the bytes read from them. Every address and length is unsigned, zero-extended to an unbounded
number. -/

namespace Sys2Proof.Machine

/-- `valid(a, n)` (R64), in unbounded integers. -/
def validRange (cfg : Config) (a n : Nat) : Bool := decide (n = 0 ∨ a + n ≤ cfg.dmemSize)

/-- `overlap((a, n), (d, m))` (R260). -/
def overlaps (a n d m : Nat) : Bool := decide (n > 0 ∧ m > 0 ∧ a < d + m ∧ d < a + n)

/-- `valid(SRC, LEN)`. -/
def srcValid (s : State) : Bool := validRange s.cfg s.src.toNat s.len.toNat

/-- `valid(KADR, KLEN)`. -/
def keyValid (s : State) : Bool := validRange s.cfg s.kadr.toNat s.klen.toNat

/-- `valid(DST, n)`. -/
def dstValid (s : State) (n : Nat) : Bool := validRange s.cfg s.dst.toNat n

/-- `overlap((SRC, LEN), (DST, n))` (R260, R262). -/
def srcDstOverlap (s : State) (n : Nat) : Bool := overlaps s.src.toNat s.len.toNat s.dst.toNat n

/-- `MemRead(SRC, LEN)`. -/
def srcBytes (s : State) : Option (List Byte) := s.mem.readBytes s.src.toNat s.len.toNat

/-- `MemRead(KADR, KLEN)`. -/
def keyBytes (s : State) : Option (List Byte) := s.mem.readBytes s.kadr.toNat s.klen.toNat

/-- DMEM after `MemWrite(DST, |bs|, bs)`. -/
def dstWritten (s : State) (bs : List Byte) : Memory := s.mem.writeBytes s.dst.toNat bs

end Sys2Proof.Machine
end

