-- ==== Sys2Proof/Machine/Base64.lean ====
section
/-! DEFINITION. The base64 commands of 43_base64.md, each the pseudocode of its rule. They are valid in every phase and
change no context state (R260, R262). -/

namespace Sys2Proof.Machine

/-- B64_ENC (R260). -/
def execB64Enc (alph : Alphabet) (s : State) : Host.Outcome State Fault Refusal :=
  if srcValid s = false then .next (raiseError .range s)
  else withBytes (srcBytes s) fun b =>
    let out := b64Encode alph b
    if dstValid s out.length = false then .next (raiseError .range s)
    else if srcDstOverlap s out.length then .next (raiseError .overlap s)
    else .next (complete out.length { s with mem := dstWritten s out })

/-- B64_DEC (R262): the source range first, the decode errors, then the destination range and the overlap. -/
def execB64Dec (alph : Alphabet) (s : State) : Host.Outcome State Fault Refusal :=
  if srcValid s = false then .next (raiseError .range s)
  else withBytes (srcBytes s) fun t =>
    match b64Decode alph t with
    | .error e => .next (raiseError e s)
    | .ok r =>
      if dstValid s r.length = false then .next (raiseError .range s)
      else if srcDstOverlap s r.length then .next (raiseError .overlap s)
      else .next (complete r.length { s with mem := dstWritten s r })

end Sys2Proof.Machine
end

