-- ==== Sys2Proof/Machine/Sm3.lean ====
section
/-! DEFINITION. The SM3 datapath of 40_sm3_core.md: constants, expander, compression function, absorb, padding and
finalisation. Every function here is total (the file's opening paragraph). -/

namespace Sys2Proof.Machine

/-- The initial value IV (R121). -/
def iv : Chain :=
  ⟨0x7380166F, 0x4914B2B9, 0x172442D7, 0xDA8A0600, 0xA96F30BC, 0x163138AA, 0xE38DEE4D, 0xB0FB0E4E⟩

/-- Permutation P0 (R123). -/
def p0 (x : Word) : Word := x ^^^ rotl x 9 ^^^ rotl x 17

/-- Permutation P1 (R124). -/
def p1 (x : Word) : Word := x ^^^ rotl x 15 ^^^ rotl x 23

/-- Boolean function FF_j (R125). -/
def ff (j : Nat) (x y z : Word) : Word :=
  if j ≤ 15 then x ^^^ y ^^^ z else (x &&& y) ||| (x &&& z) ||| (y &&& z)

/-- Boolean function GG_j (R126). -/
def gg (j : Nat) (x y z : Word) : Word :=
  if j ≤ 15 then x ^^^ y ^^^ z else (x &&& y) ||| (~~~x &&& z)

/-- T_j (R127). -/
def tConst (j : Nat) : Word := if j ≤ 15 then 0x79CC4519 else 0x7A879D8A

/-- The round-constant ROM word K[j] (R127). -/
def kRom (j : Nat) : Word := rotl (tConst j) (j % 32)

/-- Word assembly: the sixteen words M[0..15] of a block, which are W[0..15] (R122, R130). -/
def firstWords (blk : List Byte) : List Word := (List.range 16).map fun i => be32 blk (4 * i)

/-- The next word W[j] from W[0..j-1], for j = |w| (R131). -/
def nextWord (w : List Word) : Word :=
  p1 (w.getD (w.length - 16) 0 ^^^ w.getD (w.length - 9) 0 ^^^ rotl (w.getD (w.length - 3) 0) 15)
    ^^^ rotl (w.getD (w.length - 13) 0) 7 ^^^ w.getD (w.length - 6) 0

/-- `n` further words of the schedule (R131). -/
def expandMore : Nat → List Word → List Word
  | 0, w => w
  | n + 1, w => expandMore n (w ++ [nextWord w])

/-- The 68-word message schedule W[0..67] (R130, R131). -/
def schedule (blk : List Byte) : List Word := expandMore 52 (firstWords blk)

/-- W'[j] = W[j] ^ W[j+4] (R132). -/
def schedule2 (w : List Word) (j : Nat) : Word := w.getD j 0 ^^^ w.getD (j + 4) 0

/-- Round j on the working registers A..H, held as v0..v7 (R134); all right-hand sides are read first. -/
def sm3Round (w : List Word) (j : Nat) (r : Chain) : Chain :=
  let ss1 := rotl (rotl r.v0 12 + r.v4 + kRom j) 7
  let ss2 := ss1 ^^^ rotl r.v0 12
  let tt1 := ff j r.v0 r.v1 r.v2 + r.v3 + ss2 + schedule2 w j
  let tt2 := gg j r.v4 r.v5 r.v6 + r.v7 + ss1 + w.getD j 0
  { v0 := tt1, v1 := r.v0, v2 := rotl r.v1 9, v3 := r.v2,
    v4 := p0 tt2, v5 := r.v4, v6 := rotl r.v5 19, v7 := r.v6 }

/-- The rounds j, j+1, ..., j+n-1 in order (R134). -/
def sm3Rounds (w : List Word) : Chain → Nat → Nat → Chain
  | r, _, 0 => r
  | r, j, n + 1 => sm3Rounds w (sm3Round w j r) (j + 1) n

/-- Feed-forward: the working registers XORed into the chaining value (R135). -/
def feedForward (r v : Chain) : Chain :=
  { v0 := r.v0 ^^^ v.v0, v1 := r.v1 ^^^ v.v1, v2 := r.v2 ^^^ v.v2, v3 := r.v3 ^^^ v.v3,
    v4 := r.v4 ^^^ v.v4, v5 := r.v5 ^^^ v.v5, v6 := r.v6 ^^^ v.v6, v7 := r.v7 ^^^ v.v7 }

/-- The compression function CF (R136): expand, load A..H (R133), 64 rounds, feed-forward.
Irreducible for the elaborator, so that no unification runs its rounds; the kernel evaluates it as any definition. -/
@[irreducible] def cf (v : Chain) (blk : List Byte) : Chain :=
  feedForward (sm3Rounds (schedule blk) v 0 64) v

/-- `n` blocks of `s` compressed in order (R137). -/
def compressBlocks : Chain → List Byte → Nat → Chain
  | v, _, 0 => v
  | v, s, n + 1 => compressBlocks (cf v (s.take 64)) (s.drop 64) n

/-- COMPRESS_N(V, s) of R137, for |s| = 64·n. -/
def compressN (v : Chain) (s : List Byte) : Chain := compressBlocks v s (s.length / 64)

/-- The big-endian bytes of a chaining value: word 0 first (R67, R143). -/
def chainBytes (v : Chain) : List Byte :=
  bytes32 v.v0 ++ bytes32 v.v1 ++ bytes32 v.v2 ++ bytes32 v.v3 ++
  bytes32 v.v4 ++ bytes32 v.v5 ++ bytes32 v.v6 ++ bytes32 v.v7

/-- BLEN (R35): the length of the pending buffer. -/
def HashState.blen (h : HashState) : Nat := h.buf.length

/-- A fresh context: IV, zero counter, empty buffer (R145, R171). -/
def HashState.fresh : HashState := { v := iv, nblk := 0, buf := [] }

/-- The loop of ABSORB (R140): `n` blocks of `s` compressed, each counted modulo 2^64. -/
def absorbBlocks : HashState → List Byte → Nat → HashState
  | h, _, 0 => h
  | h, s, n + 1 => absorbBlocks { h with v := cf h.v (s.take 64), nblk := h.nblk + 1 } (s.drop 64) n

/-- ABSORB(data) (R140): what is pending and the new data, its whole blocks compressed, the remainder kept. -/
def HashState.absorb (data : List Byte) (h : HashState) : HashState :=
  let s := h.buf ++ data
  let n := s.length / 64
  { absorbBlocks h s n with buf := s.drop (64 * n) }

/-- The message length in bits, modulo 2^64 (R142). -/
def HashState.bitLength (h : HashState) : BitVec 64 :=
  BitVec.ofNat 64 ((h.nblk.toNat * 64 + h.blen) * 8)

/-- The number of zero bytes of the padding (R142). -/
def padZeros (blen : Nat) : Nat := if blen ≤ 55 then 55 - blen else 119 - blen

/-- PAD() (R142). -/
def HashState.pad (h : HashState) : List Byte :=
  h.buf ++ [0x80#8] ++ zeros (padZeros h.blen) ++ bytes64 h.bitLength

/-- The context FINALIZE() leaves (R143): V after the padding compressions, the buffer empty, NBLK unchanged. -/
def HashState.finalized (h : HashState) : HashState :=
  { h with v := compressN h.v h.pad, buf := [] }

/-- The 32 bytes FINALIZE() returns (R143). Irreducible as `cf` is. -/
@[irreducible] def HashState.digest (h : HashState) : List Byte := chainBytes h.finalized.v

/-- SM3(m) (R145). -/
def sm3 (m : List Byte) : List Byte := (HashState.fresh.absorb m).digest

end Sys2Proof.Machine
end

