-- ==== Sys2Proof/Machine/Hash.lean ====
section
/-! DEFINITION. The hash commands of 41_hash_commands.md. Each meaning is the pseudocode of its rule: checks in the
order of R275, then effects. -/

namespace Sys2Proof.Machine

/-- INIT (R171). -/
def execInit (s : State) : Host.Outcome State Fault Refusal :=
  .next (complete 0 { s with hash := HashState.fresh, kb := zeros 64, ctx := .hashActive })

/-- UPDATE (R172). -/
def execUpdate (s : State) : Host.Outcome State Fault Refusal :=
  if s.ctx ≠ .hashActive then .next (raiseError .state s)
  else if srcValid s = false then .next (raiseError .range s)
  else withBytes (srcBytes s) fun data =>
    .next (complete 0 { s with hash := s.hash.absorb data })

/-- FINISH (R174). -/
def execFinish (s : State) : Host.Outcome State Fault Refusal :=
  if s.ctx ≠ .hashActive then .next (raiseError .state s)
  else if dstValid s 32 = false then .next (raiseError .range s)
  else .next (complete 32
    { s with mem := dstWritten s s.hash.digest, hash := s.hash.finalized, ctx := .hashDone })

/-- DIGEST (R176): every source byte is read before any destination byte is written. -/
def execDigest (s : State) : Host.Outcome State Fault Refusal :=
  if srcValid s = false then .next (raiseError .range s)
  else if dstValid s 32 = false then .next (raiseError .range s)
  else withBytes (srcBytes s) fun m =>
    let h := HashState.fresh.absorb m
    .next (complete 32
      { s with mem := dstWritten s h.digest, hash := h.finalized, kb := zeros 64, ctx := .hashDone })

/-- COMPRESS (R180): V and nothing else of the context. -/
def execCompress (s : State) : Host.Outcome State Fault Refusal :=
  if s.ctx = .hmacInner then .next (raiseError .state s)
  else if s.len.toNat % 64 ≠ 0 then .next (raiseError .length s)
  else if srcValid s = false then .next (raiseError .range s)
  else withBytes (srcBytes s) fun blocks =>
    .next (complete 0 { s with hash := { s.hash with v := compressN s.hash.v blocks } })

end Sys2Proof.Machine
end

