-- ==== Sys2Proof/Machine/HmacCore.lean ====
section
/-! DEFINITION. The pure functions of 42_hmac.md: key block, pads, outer hash and the MAC function. -/

namespace Sys2Proof.Machine

/-- IPAD (R202). -/
def ipad : Byte := 0x36

/-- OPAD (R202). -/
def opad : Byte := 0x5c

/-- The in-place conversion byte 0x36 ^ 0x5c = 0x6A (R202). -/
def convPad : Byte := 0x6A

/-- KEYBLOCK(k) (R201). -/
def keyBlock (k : List Byte) : List Byte :=
  if k.length ≤ 64 then k ++ zeros (64 - k.length) else sm3 k ++ zeros 32

/-- The hash context HMAC_INIT leaves (R205): the inner-padded key block absorbed into a fresh context. -/
def innerStart (kb : List Byte) : HashState := HashState.fresh.absorb kb

/-- The MAC of HMAC_FINISH (R209): `kb` is the inner-padded key block, `inner` the inner digest; KB is converted to the
outer pad in place, absorbed into a fresh context with the inner digest, and finalised. -/
def outerMac (kb inner : List Byte) : List Byte :=
  ((HashState.fresh.absorb (xorAll convPad kb)).absorb inner).digest

/-- HMAC_SM3(k, m) (R203). -/
def hmacSm3 (k m : List Byte) : List Byte :=
  sm3 (xorAll opad (keyBlock k) ++ sm3 (xorAll ipad (keyBlock k) ++ m))

end Sys2Proof.Machine
end

