-- ==== Sys2Proof/Machine/Hmac.lean ====
section
/-! DEFINITION. The HMAC commands of 42_hmac.md, each the pseudocode of its rule. -/

namespace Sys2Proof.Machine

/-- HMAC_INIT (R205). -/
def execHmacInit (s : State) : Host.Outcome State Fault Refusal :=
  if keyValid s = false then .next (raiseError .range s)
  else withBytes (keyBytes s) fun k =>
    let kb := xorAll ipad (keyBlock k)
    .next (complete 0 { s with kb := kb, hash := innerStart kb, ctx := .hmacInner })

/-- HMAC_UPDATE (R207). -/
def execHmacUpdate (s : State) : Host.Outcome State Fault Refusal :=
  if s.ctx ≠ .hmacInner then .next (raiseError .state s)
  else if srcValid s = false then .next (raiseError .range s)
  else withBytes (srcBytes s) fun data =>
    .next (complete 0 { s with hash := s.hash.absorb data })

/-- HMAC_FINISH (R209): inner finalisation, outer hash, the MAC written at DST, then zeroisation (R212). -/
def execHmacFinish (s : State) : Host.Outcome State Fault Refusal :=
  if s.ctx ≠ .hmacInner then .next (raiseError .state s)
  else if dstValid s 32 = false then .next (raiseError .range s)
  else .next (complete 32
    (zeroize { s with mem := dstWritten s (outerMac s.kb s.hash.digest), ctx := .hmacDone }))

/-- HMAC (R215): both sources are read before the MAC is written. -/
def execHmac (s : State) : Host.Outcome State Fault Refusal :=
  if keyValid s = false then .next (raiseError .range s)
  else if srcValid s = false then .next (raiseError .range s)
  else if dstValid s 32 = false then .next (raiseError .range s)
  else withBytes (keyBytes s) fun k => withBytes (srcBytes s) fun m =>
    let kb := xorAll ipad (keyBlock k)
    let inner := ((innerStart kb).absorb m).digest
    .next (complete 32 (zeroize { s with mem := dstWritten s (outerMac kb inner), ctx := .hmacDone }))

end Sys2Proof.Machine
end

