-- ==== Sys2Proof/Machine/Dispatch.lean ====
section
/-! DEFINITION. One arm per command: its meaning. -/

namespace Sys2Proof.Machine

def exec (i : Instr) (s : State) : Host.Outcome State Fault Refusal :=
  match i with
  | .init => Sys2Proof.Machine.execInit s
  | .update => Sys2Proof.Machine.execUpdate s
  | .finish => Sys2Proof.Machine.execFinish s
  | .digest => Sys2Proof.Machine.execDigest s
  | .compress => Sys2Proof.Machine.execCompress s
  | .hmacInit => Sys2Proof.Machine.execHmacInit s
  | .hmacUpdate => Sys2Proof.Machine.execHmacUpdate s
  | .hmacFinish => Sys2Proof.Machine.execHmacFinish s
  | .hmac => Sys2Proof.Machine.execHmac s
  | .b64Enc alph => Sys2Proof.Machine.execB64Enc alph s
  | .b64Dec alph => Sys2Proof.Machine.execB64Dec alph s

end Sys2Proof.Machine
end

