-- ==== Sys2Proof/Machine/Flags.lean ====
section
/-! DEFINITION. The STATUS word (R23, R24). The engine has no condition codes (R41); ERR, ECODE, BUSY and OUTLEN are
computed by `complete` and `raiseError` (Ops.lean), WDROP by the host's writes (HostBus.lean). -/

namespace Sys2Proof.Machine

/-- The 3-bit code of a phase (R24). -/
def phaseCode : Phase → BitVec 3
  | .idle => 0
  | .hashActive => 1
  | .hashDone => 2
  | .hmacInner => 3
  | .hmacDone => 4

/-- One bit of STATUS. -/
def flagBit (b : Bool) : BitVec 1 := if b then 1#1 else 0#1

/-- STATUS as the host reads it (R23): reserved bits 31:13, 11 and 3:2 read 0, WDROP is bit 12, CTX 10:8, ECODE 7:4,
ERR 1, BUSY 0. -/
def statusWord (s : State) : Word :=
  0#19 ++ flagBit s.wdrop ++ 0#1 ++ phaseCode s.ctx ++ s.ecode ++ 0#2 ++ flagBit s.err ++ flagBit s.busy

end Sys2Proof.Machine
end

