-- ==== Sys2Proof/Machine/HostBus.lean ====
section
/-! DEFINITION. The host's side of the machine: what a register reads as (R21 to R31), what a register write does (R22,
R25, R26, R28, R31), a host DMEM access (R66, R310), POLL (R101), and one host turn. -/

namespace Sys2Proof.Machine

/-- Word i of a chaining value (R28). -/
def chainWord (c : Chain) (i : Fin 8) : Word :=
  match i with
  | 0 => c.v0
  | 1 => c.v1
  | 2 => c.v2
  | 3 => c.v3
  | 4 => c.v4
  | 5 => c.v5
  | 6 => c.v6
  | 7 => c.v7

/-- A chaining value with word i replaced (R28). -/
def setChainWord (c : Chain) (i : Fin 8) (w : Word) : Chain :=
  match i with
  | 0 => { c with v0 := w }
  | 1 => { c with v1 := w }
  | 2 => { c with v2 := w }
  | 3 => { c with v3 := w }
  | 4 => { c with v4 := w }
  | 5 => { c with v5 := w }
  | 6 => { c with v6 := w }
  | 7 => { c with v7 := w }

/-- What a host read of a register returns (R21 to R30): CMD reads 0 (R22), V0..V7 read 0 while an HMAC is live (R28). -/
def readRegister (r : Reg) (s : State) : Word :=
  match r with
  | .cmd => 0
  | .status => statusWord s
  | .src => s.src
  | .len => s.len
  | .dst => s.dst
  | .kadr => s.kadr
  | .klen => s.klen
  | .outlen => s.outlen
  | .v i => if s.ctx = .hmacInner then 0 else chainWord s.hash.v i
  | .nblkLo => s.hash.nblk.extractLsb' 0 32
  | .nblkHi => s.hash.nblk.extractLsb' 32 32
  | .blen => BitVec.ofNat 32 (s.hash.buf.length % 64)

/-- What a host read at an aligned offset returns: a reserved offset reads 0 (R31). -/
def readOffset (off : BitVec 8) (s : State) : Word :=
  match regAt off with
  | some r => readRegister r s
  | none => 0

/-- A write that is dropped sets WDROP and changes nothing else (R25). -/
def dropWrite (s : State) : State := { s with wdrop := true }

/-- A write to an operand register or CMD: dropped while BUSY = 1 (R25). -/
def unlessBusy (s s' : State) : State := if s.busy then dropWrite s else s'

/-- A host write to a register (R22, R25, R26, R28, R31). -/
def writeRegister (r : Reg) (w : Word) (s : State) : State :=
  match r with
  | .cmd => unlessBusy s { s with cmdl := w, busy := true }
  | .status => if w.getLsbD 12 then { s with wdrop := false } else s
  | .src => unlessBusy s { s with src := w }
  | .len => unlessBusy s { s with len := w }
  | .dst => unlessBusy s { s with dst := w }
  | .kadr => unlessBusy s { s with kadr := w }
  | .klen => unlessBusy s { s with klen := w }
  | .v i =>
    if s.ctx = .hmacInner then dropWrite s
    else unlessBusy s { s with hash := { s.hash with v := setChainWord s.hash.v i w } }
  | .outlen => s
  | .nblkLo => s
  | .nblkHi => s
  | .blen => s

/-- A host write at an aligned offset: ignored at a reserved one (R31). -/
def writeOffset (off : BitVec 8) (w : Word) (s : State) : State :=
  match regAt off with
  | some r => writeRegister r w s
  | none => s

/-- The faults a host access to DMEM byte `a` reaches: HAZARD_DMEM_BUSY while BUSY = 1 (R310), READ_UNWRITTEN for a read
of an unwritten byte (R66). -/
def accessFaults (read : Bool) (a : Nat) (s : State) : List Fault :=
  (if s.busy then [Fault.hazardDmemBusy] else []) ++
  (if read && (s.mem.readByte a).isNone then [Fault.readUnwritten] else [])

/-- The faults an access reached, put into the fault record (R43). -/
def recordFaults : List Fault → State → State
  | [], s => s
  | f :: fs, s => recordFaults fs (recordFault f s)

/-- A host read of DMEM byte `a` (R66). -/
def hostReadMem (a : Nat) (s : State) : Host.Outcome State Fault Refusal :=
  if s.cfg.dmemSize ≤ a then .refused .dmemAddress
  else match accessFaults true a s, s.mem.readByte a with
    | [], some b => .next { s with rdata := some (b.setWidth 32) }
    | fs, _ => .next (recordFaults fs s)

/-- A host write of DMEM byte `a` (R66). R310 leaves open what DMEM holds after a write while BUSY = 1: the model leaves the
byte as it was in the state that holds the fault, and stops there (DESIGN CHOICE, notes/assumptions/21.md). -/
def hostWriteMem (a : Nat) (b : Byte) (s : State) : Host.Outcome State Fault Refusal :=
  if s.cfg.dmemSize ≤ a then .refused .dmemAddress
  else match accessFaults false a s with
    | [] => .next { s with mem := s.mem.writeByte a b }
    | fs => .next (recordFaults fs s)

/-- One host step (R20, R65, R66, R101), in a state from whose host program it has been taken. A POLL that reads
BUSY = 1 stays the host's next step. -/
def hostAccess (h : HostStep) (s : State) : Host.Outcome State Fault Refusal :=
  match h with
  | .readReg width off =>
    if regAccessOk width off then .next { s with rdata := some (readOffset off s) }
    else .refused .registerAccess
  | .writeReg width off w =>
    if regAccessOk width off then .next (writeOffset off w s) else .refused .registerAccess
  | .readMem a => hostReadMem a s
  | .writeMem a b => hostWriteMem a b s
  | .poll =>
    .next { s with rdata := some (statusWord s), host := if s.busy then .poll :: s.host else s.host }

/-- The host's turn: its next step, or none left and nothing happens. -/
def hostTurn (s : State) : Host.Outcome State Fault Refusal :=
  match s.host with
  | [] => .next s
  | h :: rest => hostAccess h { s with host := rest }

end Sys2Proof.Machine
end

