-- ==== Sys2Proof/Machine/Engine.lean ====
section
/-! DEFINITION. The engine's turn (R270), the reset input (R300, R301), and who moves next (R74). -/

namespace Sys2Proof.Machine

/-- A fault a command reaches is put into the fault record (R43, R62); the command has no other effect in the model. -/
def recordOutcome (s : State) (o : Host.Outcome State Fault Refusal) : Host.Outcome State Fault Refusal :=
  match o with
  | .fault f => .next (recordFault f s)
  | o => o

/-- The engine's turn (R270): with BUSY = 1 it decodes CMDL and runs the command, or raises Error(ILLEGAL) (R97); with
BUSY = 0 it holds its state (R292). -/
def engineTurn (s : State) : Host.Outcome State Fault Refusal :=
  if s.busy then
    match decode s.cmdl with
    | .ok i => recordOutcome s (exec i s)
    | .error _ => .next (raiseError .illegal s)
  else .next s

/-- The address and length of the destination range of the pending command (R95, R301). For B64_DEC the length is that of
the decoded text (R253); notes/assumptions/9.md says what is taken when there is none. -/
def pendingDestination (s : State) : Nat × Nat :=
  match decode s.cmdl with
  | .error _ => (0, 0)
  | .ok i =>
    match i with
    | .init | .update | .compress | .hmacInit | .hmacUpdate => (0, 0)
    | .finish | .digest | .hmacFinish | .hmac => (s.dst.toNat, 32)
    | .b64Enc alph => (s.dst.toNat, encodedLength alph s.len.toNat)
    | .b64Dec alph =>
      match srcValid s, srcBytes s with
      | true, some t =>
        match b64Decode alph t with
        | .ok r => (s.dst.toNat, r.length)
        | .error _ => (0, 0)
      | true, none => (s.dst.toNat, decodedLength s.len.toNat)
      | false, _ => (0, 0)

/-- DMEM after a reset (R301): as it was, but a pending command's destination range becomes unwritten. -/
def memAfterReset (s : State) : Memory :=
  if s.busy then s.mem.unwrite (pendingDestination s).1 (pendingDestination s).2 else s.mem

/-- The reset input (R300, R301): every register and context field takes its value of R44; the fault record is not
cleared (R43), DMEM follows R301, and the host's side is not the engine's. -/
def resetTurn (s : State) : State :=
  { State.reset with
    mem := memAfterReset s, faults := s.faults, cfg := s.cfg,
    host := s.host, sched := s.sched, rdata := s.rdata }

/-- Who moves next (R74): the first coming turn; where none is left, a pending command executes (the weak fairness of
R270), and otherwise the host moves. -/
def nextTurn (s : State) : Turn :=
  match s.sched with
  | t :: _ => t
  | [] => if s.busy then .engine else .host

/-- The state in which the mover acts: its turn taken from the coming turns. -/
def takeTurn (s : State) : State := { s with sched := s.sched.tail }

/-- One turn. -/
def runTurn (t : Turn) (s : State) : Host.Outcome State Fault Refusal :=
  match t with
  | .host => hostTurn s
  | .engine => engineTurn s
  | .reset => .next (resetTurn s)

/-- One step of the machine: a recorded fault has stopped it (R280, "no claim holds past it"); otherwise the next turn. -/
def stepOnce (s : State) : Host.Outcome State Fault Refusal :=
  match s.faults with
  | f :: _ => .fault f
  | [] => runTurn (nextTurn s) (takeTurn s)

/-- `s` with the command word `c` latched as by an accepted CMD write (R22) and the engine to move next. -/
def latchCommand (s : State) (c : Word) : State :=
  { s with cmdl := c, busy := true, sched := .engine :: s.sched }

end Sys2Proof.Machine
end

