-- ==== Sys2Proof/Machine/Step.lean ====
section
/-! DEFINITION. The step of the machine and the placing of its next command. -/

namespace Sys2Proof.Machine

/-- One step (Engine.lean). -/
def step (s : State) : Host.Outcome State Fault Refusal := stepOnce s

/-- `s` with the instruction whose bits are `w` where the next step takes it: commands are not fetched from memory (R40,
R78), so the word is latched as by an accepted CMD write and the next turn is the engine's (notes/assumptions/2.md). -/
def State.withFetchWord (s : State) (nbits w : Nat) : State :=
  latchCommand s (BitVec.ofNat 32 (w % 2 ^ nbits))

end Sys2Proof.Machine
end

