-- ==== Sys2Proof/Safety.lean ====
section
/-! DEFINITION. What the claims are about: the invariant every step keeps (R45 and the layout rules), and the few notions the
statements use. -/

namespace Sys2Proof.Machine

/-- DMEM keeps its canonical form and lies below DMEM_SIZE (R61). -/
abbrev MemoryInv (s : State) : Prop := s.mem.wf ∧ ∀ c ∈ s.mem, c.1 < s.cfg.dmemSize

/-- The context invariants of R45 that the command rules and the host's access to V0..V7 keep (R35, R36, R45): the pending
buffer holds fewer than 64 bytes, KB has 64 bytes and is zero unless an HMAC is live, a finished context has an empty
buffer, and a context zeroed by HMAC or never started has a zero counter. -/
abbrev ContextInv (s : State) : Prop :=
  s.hash.buf.length < 64 ∧
  s.kb.length = 64 ∧
  (s.ctx ≠ .hmacInner → s.kb = zeros 64) ∧
  (s.ctx = .hashDone ∨ s.ctx = .hmacDone ∨ s.ctx = .idle → s.hash.buf = []) ∧
  (s.ctx = .hmacDone ∨ s.ctx = .idle → s.hash.nblk = 0)

/-- The status invariants (R23, R27, R272): ECODE is 0 exactly when ERR = 0 and never above 7, an error leaves OUTLEN = 0,
and OUTLEN never exceeds DMEM_SIZE. -/
abbrev StatusInv (s : State) : Prop :=
  (s.err = false ↔ s.ecode = 0) ∧
  s.ecode.toNat ≤ 7 ∧
  (s.err = true → s.outlen = 0) ∧
  s.outlen.toNat ≤ s.cfg.dmemSize

/-- The invariant of the machine. -/
abbrev MachineInv (s : State) : Prop :=
  s.cfg.Legal ∧ MemoryInv s ∧ ContextInv s ∧ StatusInv s

/-- Every DMEM byte of `[a, a + n)` is written (R42). -/
abbrev WrittenRange (s : State) (a n : Nat) : Prop := ∀ k, k < n → (s.mem.readByte (a + k)).isSome

/-- `valid(a, n)` of R64, as a proposition. -/
abbrev InDmem (s : State) (a n : Nat) : Prop := n = 0 ∨ a + n ≤ s.cfg.dmemSize

/-- The transition table of R200: the phase after a successful command, none where the command raises Error(STATE). -/
def phaseTable : Instr → Phase → Option Phase
  | .init, _ => some .hashActive
  | .update, .hashActive => some .hashActive
  | .update, _ => none
  | .finish, .hashActive => some .hashDone
  | .finish, _ => none
  | .digest, _ => some .hashDone
  | .compress, .hmacInner => none
  | .compress, p => some p
  | .hmacInit, _ => some .hmacInner
  | .hmacUpdate, .hmacInner => some .hmacInner
  | .hmacUpdate, _ => none
  | .hmacFinish, .hmacInner => some .hmacDone
  | .hmacFinish, _ => none
  | .hmac, _ => some .hmacDone
  | .b64Enc _, p => some p
  | .b64Dec _, p => some p

/-- The ECODEs each command can report: the column "raised by" of R272 (ILLEGAL, 1, belongs to no command). -/
def raisedBy : Instr → List (BitVec 4)
  | .init => []
  | .update => [2, 4]
  | .finish => [2, 4]
  | .digest => [4]
  | .compress => [2, 3, 4]
  | .hmacInit => [4]
  | .hmacUpdate => [2, 4]
  | .hmacFinish => [2, 4]
  | .hmac => [4]
  | .b64Enc _ => [4, 7]
  | .b64Dec _ => [4, 5, 6, 7]

/-- The 64 ROM words K[0..63] as the table of R127 lists them. -/
def roundConstants : List Word :=
  [0x79CC4519#32, 0xF3988A32#32, 0xE7311465#32, 0xCE6228CB#32, 0x9CC45197#32, 0x3988A32F#32, 0x7311465E#32, 0xE6228CBC#32] ++
  [0xCC451979#32, 0x988A32F3#32, 0x311465E7#32, 0x6228CBCE#32, 0xC451979C#32, 0x88A32F39#32, 0x11465E73#32, 0x228CBCE6#32] ++
  [0x9D8A7A87#32, 0x3B14F50F#32, 0x7629EA1E#32, 0xEC53D43C#32, 0xD8A7A879#32, 0xB14F50F3#32, 0x629EA1E7#32, 0xC53D43CE#32] ++
  [0x8A7A879D#32, 0x14F50F3B#32, 0x29EA1E76#32, 0x53D43CEC#32, 0xA7A879D8#32, 0x4F50F3B1#32, 0x9EA1E762#32, 0x3D43CEC5#32] ++
  [0x7A879D8A#32, 0xF50F3B14#32, 0xEA1E7629#32, 0xD43CEC53#32, 0xA879D8A7#32, 0x50F3B14F#32, 0xA1E7629E#32, 0x43CEC53D#32] ++
  [0x879D8A7A#32, 0x0F3B14F5#32, 0x1E7629EA#32, 0x3CEC53D4#32, 0x79D8A7A8#32, 0xF3B14F50#32, 0xE7629EA1#32, 0xCEC53D43#32] ++
  [0x9D8A7A87#32, 0x3B14F50F#32, 0x7629EA1E#32, 0xEC53D43C#32, 0xD8A7A879#32, 0xB14F50F3#32, 0x629EA1E7#32, 0xC53D43CE#32] ++
  [0x8A7A879D#32, 0x14F50F3B#32, 0x29EA1E76#32, 0x53D43CEC#32, 0xA7A879D8#32, 0x4F50F3B1#32, 0x9EA1E762#32, 0x3D43CEC5#32]

/-- The DMEM ranges a command reads, as (address, length): the column "DMEM ranges read" of R95. -/
def rangesRead (i : Instr) (s : State) : List (Nat × Nat) :=
  match i with
  | .init | .finish | .hmacFinish => []
  | .update | .digest | .compress | .hmacUpdate | .b64Enc _ | .b64Dec _ => [(s.src.toNat, s.len.toNat)]
  | .hmacInit => [(s.kadr.toNat, s.klen.toNat)]
  | .hmac => [(s.kadr.toNat, s.klen.toNat), (s.src.toNat, s.len.toNat)]

/-- Some DMEM byte of `[a, a + n)` is unwritten (R42). -/
abbrev HoldsUnwritten (s : State) (a n : Nat) : Prop := ∃ x, a ≤ x ∧ x < a + n ∧ s.mem.readByte x = none

/-- What a host may not see of a live HMAC replaced by other values: the key block (R36) and the chaining value (R28). -/
def replaceSecret (kb : List Byte) (v : Chain) (s : State) : State :=
  { s with kb := kb, hash := { s.hash with v := v } }

/-- The same change to the state an outcome holds. -/
def mapNext (f : State → State) : Host.Outcome State Fault Refusal → Host.Outcome State Fault Refusal
  | .next s => .next (f s)
  | .fault r => .fault r
  | .refused r => .refused r

end Sys2Proof.Machine
end

