-- ==== Sys2Proof/Certificates/Slice0/Obligations.lean ====
section
/-! DEFINITION. The statements for the provers: what the commands, the host's accesses, the reset input and every step do. -/

open Sys2Proof Sys2Proof.Machine

/-! ### Encoding -/

/-- R94: the 13 legal command words and their commands; every other command word is illegal. -/
def Obligations.OpcodeMapIsExact : Prop :=
  (decode 0x00000001#32 = .ok .init ∧ decode 0x00000002#32 = .ok .update ∧ decode 0x00000003#32 = .ok .finish ∧
    decode 0x00000004#32 = .ok .digest ∧ decode 0x00000005#32 = .ok .compress ∧
    decode 0x00000006#32 = .ok .hmacInit ∧ decode 0x00000007#32 = .ok .hmacUpdate ∧
    decode 0x00000008#32 = .ok .hmacFinish ∧ decode 0x00000009#32 = .ok .hmac ∧
    decode 0x0000000A#32 = .ok (.b64Enc .std) ∧ decode 0x0000001A#32 = .ok (.b64Enc .url) ∧
    decode 0x0000000B#32 = .ok (.b64Dec .std) ∧ decode 0x0000001B#32 = .ok (.b64Dec .url)) ∧
  ∀ c : Word,
    c ∉ [0x1#32, 0x2#32, 0x3#32, 0x4#32, 0x5#32, 0x6#32, 0x7#32, 0x8#32, 0x9#32, 0xA#32, 0xB#32, 0x1A#32, 0x1B#32] →
    ∃ e, decode c = .error e

/-- A few words of 95_test_vectors.md section 5 decode, or are refused by name, as they are written there. -/
def Obligations.SpecWordsDecode : Prop :=
  decode 0x00000003#32 = .ok .finish ∧ decode 0x00000008#32 = .ok .hmacFinish ∧
  decode 0x0000001A#32 = .ok (.b64Enc .url) ∧ decode 0x0000000B#32 = .ok (.b64Dec .std) ∧
  decode 0x00000000#32 = .error .opReserved ∧ decode 0x0000001C#32 = .error .opReserved ∧
  decode 0x00000011#32 = .error .alphNotBase64 ∧ decode 0x8000000A#32 = .error .resNonzero

/-- Decode and encode agree in both directions, for every word and every command (30_encoding.md sections 2 and 4). -/
def Obligations.DecodeAgreesWithEncode : Prop :=
  ∀ (c : Word) (i : Instr), decode c = .ok i ↔ c = encode i

/-- R97: an illegal pending word (RES ≠ 0, OP reserved, or ALPH = 1 with OP other than 0xA and 0xB) ends the command with
Error(ILLEGAL), ECODE 1 (R272), and no other effect; and no other word is illegal. -/
def Obligations.IllegalWordRaisesIllegal : Prop :=
  (∀ c : Word, (∃ e, decode c = .error e) ↔
    (c.extractLsb' 5 27 ≠ 0#27 ∨ c.extractLsb' 0 4 = 0#4 ∨ 12 ≤ (c.extractLsb' 0 4).toNat ∨
      (c.extractLsb' 4 1 = 1#1 ∧ c.extractLsb' 0 4 ≠ 0xA#4 ∧ c.extractLsb' 0 4 ≠ 0xB#4))) ∧
  ∀ (s : State) (e : Illegal), s.faults = [] → nextTurn s = .engine → s.busy = true → decode s.cmdl = .error e →
    step s = .next { s with sched := s.sched.tail, outlen := 0, err := true, ecode := 1, busy := false }

/-! ### The step -/

/-- A step is the next turn. The engine's (R270): with BUSY = 1 it runs the decoded command on the state with the turn taken, a
fault the command reaches going into the fault record (R43); with BUSY = 0 it holds its state (R292). The host's: its next
step, taken from its program, is the access `hostAccess` gives; an empty program takes only the turn
(notes/assumptions/1.md, 2.md); a POLL reads STATUS and stays next while BUSY = 1 (R101, notes/assumptions/15.md). -/
def Obligations.StepRunsThePendingCommand : Prop :=
  (∀ (s : State) (i : Instr), s.faults = [] → nextTurn s = .engine → s.busy = true → decode s.cmdl = .ok i →
    step s =
      match exec i { s with sched := s.sched.tail } with
      | .next t => .next t
      | .fault f => .next { s with sched := s.sched.tail, faults := [f] }
      | .refused r => .refused r) ∧
  (∀ s : State, s.faults = [] → nextTurn s = .engine → s.busy = false →
    step s = .next { s with sched := s.sched.tail }) ∧
  (∀ (s : State) (h : HostStep) (rest : List HostStep), s.faults = [] → nextTurn s = .host → s.host = h :: rest →
    step s = hostAccess h { s with sched := s.sched.tail, host := rest }) ∧
  (∀ s : State, s.faults = [] → nextTurn s = .host → s.host = [] → step s = .next { s with sched := s.sched.tail }) ∧
  ∀ (s : State) (rest : List HostStep), s.faults = [] → nextTurn s = .host → s.host = .poll :: rest →
    step s = .next { s with
      sched := s.sched.tail, rdata := some (statusWord s), host := if s.busy = true then .poll :: rest else rest }

/-- R43, R280: once a fault is recorded the machine stops with a recorded fault. That it stops is the model's choice
(notes/assumptions/4.md). -/
def Obligations.RecordedFaultStopsTheMachine : Prop :=
  ∀ s : State, s.faults ≠ [] → ∃ f, f ∈ s.faults ∧ step s = .fault f

/-- The weak fairness of R270 in the model: with no coming turn chosen, a pending command whose ranges are written
executes in the next step, and BUSY is 0 after it. That an empty schedule lets the engine move is the model's choice
(notes/assumptions/1.md). -/
def Obligations.PendingCommandExecutes : Prop :=
  ∀ s : State, s.faults = [] → s.sched = [] → s.busy = true →
    WrittenRange s s.src.toNat s.len.toNat → WrittenRange s s.kadr.toNat s.klen.toNat →
    ∃ t, step s = .next t ∧ t.busy = false

/-- RUN of a command (R101) from an idle machine: the CMD write, the command's step and one POLL, after which the host has
read the STATUS the command left, with BUSY = 0, and is behind the line. -/
def Obligations.RunLineCompletesTheCommand : Prop :=
  ∀ (s t : State) (i : Instr) (rest : List HostStep),
    s.faults = [] → s.sched = [] → s.busy = false → s.host = expandLine (.run i) ++ rest →
    exec i { s with cmdl := encode i, busy := true, host := .poll :: rest } = .next t →
    Host.Core.run Sys2Proof.core 3 s = .next { t with host := rest, rdata := some (statusWord t) } ∧
      (statusWord t).getLsbD 0 = false

/-! ### The commands, each rule whole: encoding, errors in their order, effect -/

/-- R171. -/
def Obligations.InitStartsHashContext : Prop :=
  decode 0x00000001#32 = .ok .init ∧
  ∀ s : State, exec .init s = .next { s with
    hash := { v := ⟨0x7380166F#32, 0x4914B2B9#32, 0x172442D7#32, 0xDA8A0600#32, 0xA96F30BC#32, 0x163138AA#32,
                    0xE38DEE4D#32, 0xB0FB0E4E#32⟩, nblk := 0, buf := [] },
    kb := List.replicate 64 0#8, ctx := .hashActive, outlen := 0, err := false, ecode := 0, busy := false }

/-- R172. -/
def Obligations.UpdateAbsorbsOrErrs : Prop :=
  decode 0x00000002#32 = .ok .update ∧
  ∀ s : State,
    (s.ctx ≠ .hashActive →
      exec .update s = .next { s with outlen := 0, err := true, ecode := 2, busy := false }) ∧
    (s.ctx = .hashActive → ¬InDmem s s.src.toNat s.len.toNat →
      exec .update s = .next { s with outlen := 0, err := true, ecode := 4, busy := false }) ∧
    (s.ctx = .hashActive → InDmem s s.src.toNat s.len.toNat →
      ∀ data, s.mem.readBytes s.src.toNat s.len.toNat = some data →
      exec .update s = .next { s with
        hash := s.hash.absorb data, outlen := 0, err := false, ecode := 0, busy := false })

/-- R174. -/
def Obligations.FinishWritesDigestOrErrs : Prop :=
  decode 0x00000003#32 = .ok .finish ∧
  ∀ s : State,
    (s.ctx ≠ .hashActive →
      exec .finish s = .next { s with outlen := 0, err := true, ecode := 2, busy := false }) ∧
    (s.ctx = .hashActive → ¬InDmem s s.dst.toNat 32 →
      exec .finish s = .next { s with outlen := 0, err := true, ecode := 4, busy := false }) ∧
    (s.ctx = .hashActive → InDmem s s.dst.toNat 32 →
      exec .finish s = .next { s with
        hash := { v := compressN s.hash.v s.hash.pad, nblk := s.hash.nblk, buf := [] },
        mem := s.mem.writeBytes s.dst.toNat (chainBytes (compressN s.hash.v s.hash.pad)),
        ctx := .hashDone, outlen := 32, err := false, ecode := 0, busy := false })

/-- R176: the digest written is SM3 of the source bytes (R145), and NBLK counts the message's whole blocks. -/
def Obligations.DigestIsOneShotSm3OrErrs : Prop :=
  decode 0x00000004#32 = .ok .digest ∧
  ∀ s : State,
    (¬(InDmem s s.src.toNat s.len.toNat ∧ InDmem s s.dst.toNat 32) →
      exec .digest s = .next { s with outlen := 0, err := true, ecode := 4, busy := false }) ∧
    (InDmem s s.src.toNat s.len.toNat → InDmem s s.dst.toNat 32 →
      ∀ m, s.mem.readBytes s.src.toNat s.len.toNat = some m →
      exec .digest s = .next { s with
        hash := { v := (HashState.fresh.absorb m).finalized.v, nblk := BitVec.ofNat 64 (m.length / 64), buf := [] },
        mem := s.mem.writeBytes s.dst.toNat (sm3 m), kb := List.replicate 64 0#8,
        ctx := .hashDone, outlen := 32, err := false, ecode := 0, busy := false })

/-- R180: STATE before LENGTH before RANGE, and V is all that changes. -/
def Obligations.CompressAppliesCfOrErrs : Prop :=
  decode 0x00000005#32 = .ok .compress ∧
  ∀ s : State,
    (s.ctx = .hmacInner →
      exec .compress s = .next { s with outlen := 0, err := true, ecode := 2, busy := false }) ∧
    (s.ctx ≠ .hmacInner → s.len.toNat % 64 ≠ 0 →
      exec .compress s = .next { s with outlen := 0, err := true, ecode := 3, busy := false }) ∧
    (s.ctx ≠ .hmacInner → s.len.toNat % 64 = 0 → ¬InDmem s s.src.toNat s.len.toNat →
      exec .compress s = .next { s with outlen := 0, err := true, ecode := 4, busy := false }) ∧
    (s.ctx ≠ .hmacInner → s.len.toNat % 64 = 0 → InDmem s s.src.toNat s.len.toNat →
      ∀ blocks, s.mem.readBytes s.src.toNat s.len.toNat = some blocks →
      exec .compress s = .next { s with
        hash := { v := compressN s.hash.v blocks, nblk := s.hash.nblk, buf := s.hash.buf },
        outlen := 0, err := false, ecode := 0, busy := false })

/-- R205: KB is KEYBLOCK(k) ^ 0x36, the inner hash has absorbed it: one block counted, nothing pending. -/
def Obligations.HmacInitPrimesInnerHashOrErrs : Prop :=
  decode 0x00000006#32 = .ok .hmacInit ∧
  ∀ s : State,
    (¬InDmem s s.kadr.toNat s.klen.toNat →
      exec .hmacInit s = .next { s with outlen := 0, err := true, ecode := 4, busy := false }) ∧
    (InDmem s s.kadr.toNat s.klen.toNat →
      ∀ k, s.mem.readBytes s.kadr.toNat s.klen.toNat = some k →
      exec .hmacInit s = .next { s with
        kb := xorAll 0x36#8 (keyBlock k),
        hash := {
          v := cf ⟨0x7380166F#32, 0x4914B2B9#32, 0x172442D7#32, 0xDA8A0600#32, 0xA96F30BC#32, 0x163138AA#32, 0xE38DEE4D#32,
                   0xB0FB0E4E#32⟩ (xorAll 0x36#8 (keyBlock k)),
          nblk := 1, buf := [] },
        ctx := .hmacInner, outlen := 0, err := false, ecode := 0, busy := false })

/-- R207. -/
def Obligations.HmacUpdateAbsorbsOrErrs : Prop :=
  decode 0x00000007#32 = .ok .hmacUpdate ∧
  ∀ s : State,
    (s.ctx ≠ .hmacInner →
      exec .hmacUpdate s = .next { s with outlen := 0, err := true, ecode := 2, busy := false }) ∧
    (s.ctx = .hmacInner → ¬InDmem s s.src.toNat s.len.toNat →
      exec .hmacUpdate s = .next { s with outlen := 0, err := true, ecode := 4, busy := false }) ∧
    (s.ctx = .hmacInner → InDmem s s.src.toNat s.len.toNat →
      ∀ data, s.mem.readBytes s.src.toNat s.len.toNat = some data →
      exec .hmacUpdate s = .next { s with
        hash := s.hash.absorb data, outlen := 0, err := false, ecode := 0, busy := false })

/-- R209: the MAC is SM3 of the outer-padded key block and the inner digest (R145), and the context is zeroed (R212). -/
def Obligations.HmacFinishWritesMacOrErrs : Prop :=
  decode 0x00000008#32 = .ok .hmacFinish ∧
  ∀ s : State,
    (s.ctx ≠ .hmacInner →
      exec .hmacFinish s = .next { s with outlen := 0, err := true, ecode := 2, busy := false }) ∧
    (s.ctx = .hmacInner → ¬InDmem s s.dst.toNat 32 →
      exec .hmacFinish s = .next { s with outlen := 0, err := true, ecode := 4, busy := false }) ∧
    (s.ctx = .hmacInner → InDmem s s.dst.toNat 32 →
      exec .hmacFinish s = .next { s with
        mem := s.mem.writeBytes s.dst.toNat (sm3 (xorAll 0x6A#8 s.kb ++ chainBytes (compressN s.hash.v s.hash.pad))),
        kb := List.replicate 64 0#8, hash := { v := ⟨0, 0, 0, 0, 0, 0, 0, 0⟩, nblk := 0, buf := [] },
        ctx := .hmacDone, outlen := 32, err := false, ecode := 0, busy := false })

/-- R215: the MAC written is HMAC_SM3(k, m) (R203), and the context is zeroed (R212). -/
def Obligations.HmacIsOneShotMacOrErrs : Prop :=
  decode 0x00000009#32 = .ok .hmac ∧
  ∀ s : State,
    (¬(InDmem s s.kadr.toNat s.klen.toNat ∧ InDmem s s.src.toNat s.len.toNat ∧ InDmem s s.dst.toNat 32) →
      exec .hmac s = .next { s with outlen := 0, err := true, ecode := 4, busy := false }) ∧
    (InDmem s s.kadr.toNat s.klen.toNat → InDmem s s.src.toNat s.len.toNat → InDmem s s.dst.toNat 32 →
      ∀ k m, s.mem.readBytes s.kadr.toNat s.klen.toNat = some k →
        s.mem.readBytes s.src.toNat s.len.toNat = some m →
      exec .hmac s = .next { s with
        mem := s.mem.writeBytes s.dst.toNat (hmacSm3 k m),
        kb := List.replicate 64 0#8, hash := { v := ⟨0, 0, 0, 0, 0, 0, 0, 0⟩, nblk := 0, buf := [] },
        ctx := .hmacDone, outlen := 32, err := false, ecode := 0, busy := false })

/-- R260: source range, then destination range, then overlap; no context state changes. -/
def Obligations.B64EncWritesTextOrErrs : Prop :=
  decode 0x0000000A#32 = .ok (.b64Enc .std) ∧ decode 0x0000001A#32 = .ok (.b64Enc .url) ∧
  ∀ (alph : Alphabet) (s : State),
    (¬InDmem s s.src.toNat s.len.toNat →
      exec (.b64Enc alph) s = .next { s with outlen := 0, err := true, ecode := 4, busy := false }) ∧
    (InDmem s s.src.toNat s.len.toNat →
      ∀ b out, s.mem.readBytes s.src.toNat s.len.toNat = some b → out = b64Encode alph b →
      (¬InDmem s s.dst.toNat out.length →
        exec (.b64Enc alph) s = .next { s with outlen := 0, err := true, ecode := 4, busy := false }) ∧
      (InDmem s s.dst.toNat out.length →
        (s.len.toNat > 0 ∧ out.length > 0 ∧ s.src.toNat < s.dst.toNat + out.length ∧
          s.dst.toNat < s.src.toNat + s.len.toNat) →
        exec (.b64Enc alph) s = .next { s with outlen := 0, err := true, ecode := 7, busy := false }) ∧
      (InDmem s s.dst.toNat out.length →
        ¬(s.len.toNat > 0 ∧ out.length > 0 ∧ s.src.toNat < s.dst.toNat + out.length ∧
          s.dst.toNat < s.src.toNat + s.len.toNat) →
        exec (.b64Enc alph) s = .next { s with
          mem := s.mem.writeBytes s.dst.toNat out,
          outlen := BitVec.ofNat 32 out.length, err := false, ecode := 0, busy := false }))

/-- R262: source range, DECODE_CHAR, DECODE_LEN, destination range, overlap; no context state changes. -/
def Obligations.B64DecWritesBytesOrErrs : Prop :=
  decode 0x0000000B#32 = .ok (.b64Dec .std) ∧ decode 0x0000001B#32 = .ok (.b64Dec .url) ∧
  ∀ (alph : Alphabet) (s : State),
    (¬InDmem s s.src.toNat s.len.toNat →
      exec (.b64Dec alph) s = .next { s with outlen := 0, err := true, ecode := 4, busy := false }) ∧
    (InDmem s s.src.toNat s.len.toNat → ∀ t, s.mem.readBytes s.src.toNat s.len.toNat = some t →
      (b64Decode alph t = .error .decodeChar →
        exec (.b64Dec alph) s = .next { s with outlen := 0, err := true, ecode := 5, busy := false }) ∧
      (b64Decode alph t = .error .decodeLen →
        exec (.b64Dec alph) s = .next { s with outlen := 0, err := true, ecode := 6, busy := false }) ∧
      (∀ r, b64Decode alph t = .ok r →
        (¬InDmem s s.dst.toNat r.length →
          exec (.b64Dec alph) s = .next { s with outlen := 0, err := true, ecode := 4, busy := false }) ∧
        (InDmem s s.dst.toNat r.length →
          (s.len.toNat > 0 ∧ r.length > 0 ∧ s.src.toNat < s.dst.toNat + r.length ∧
            s.dst.toNat < s.src.toNat + s.len.toNat) →
          exec (.b64Dec alph) s = .next { s with outlen := 0, err := true, ecode := 7, busy := false }) ∧
        (InDmem s s.dst.toNat r.length →
          ¬(s.len.toNat > 0 ∧ r.length > 0 ∧ s.src.toNat < s.dst.toNat + r.length ∧
            s.dst.toNat < s.src.toNat + s.len.toNat) →
          exec (.b64Dec alph) s = .next { s with
            mem := s.mem.writeBytes s.dst.toNat r,
            outlen := BitVec.ofNat 32 r.length, err := false, ecode := 0, busy := false })))

/-! ### What every command does and leaves alone -/

/-- R274: an error changes STATUS.ERR, ECODE, BUSY and OUTLEN and nothing else. -/
def Obligations.ErrorsArePrecise : Prop :=
  ∀ (i : Instr) (s t : State), exec i s = .next t → t.err = true →
    t = { s with outlen := 0, err := true, ecode := t.ecode, busy := false } ∧ t.ecode ≠ 0

/-- R170, R272, R273: the status a command leaves: BUSY = 0, ECODE = 0 exactly on success, and on an error OUTLEN = 0 and one
of the codes R272 lists for that command. -/
def Obligations.CommandStatusIsConsistent : Prop :=
  ∀ (i : Instr) (s t : State), exec i s = .next t →
    t.busy = false ∧ (t.err = false ↔ t.ecode = 0) ∧ (t.err = true → t.ecode ∈ raisedBy i ∧ t.outlen = 0)

/-- R25, R26, R38, R43: no command writes an operand register, WDROP, CMDL, the fault record, DMEM_SIZE or the host's
side. -/
def Obligations.CommandsKeepOperandsAndHostSide : Prop :=
  ∀ (i : Instr) (s t : State), exec i s = .next t →
    t.src = s.src ∧ t.len = s.len ∧ t.dst = s.dst ∧ t.kadr = s.kadr ∧ t.klen = s.klen ∧
    t.wdrop = s.wdrop ∧ t.cmdl = s.cmdl ∧ t.faults = s.faults ∧ t.cfg = s.cfg ∧
    t.host = s.host ∧ t.sched = s.sched ∧ t.rdata = s.rdata

/-- R27, R62, R63: every command's memory frame. It stores exactly OUTLEN bytes, at DST (none after an error): every byte
outside them reads as before. `writeBytes` is R63's MemWrite, byte by byte: a byte of the range reads the byte of the
sequence, every other one as before. `readBytes` is R62's MemRead: it answers a sequence exactly when that has the range's
length and every byte of the range reads the sequence's byte. The five commands that store nothing leave OUTLEN = 0 and DMEM
as it was. -/
def Obligations.CommandsFrameMemory : Prop :=
  (∀ (i : Instr) (s t : State), s.cfg.Legal → exec i s = .next t →
    (∃ bs : List Byte, bs.length = t.outlen.toNat ∧ t.mem = s.mem.writeBytes s.dst.toNat bs) ∧
    (∀ a, (a < s.dst.toNat ∨ s.dst.toNat + t.outlen.toNat ≤ a) → t.mem.readByte a = s.mem.readByte a) ∧
    (∀ a, s.dst.toNat ≤ a → a < s.dst.toNat + t.outlen.toNat → (t.mem.readByte a).isSome = true)) ∧
  (∀ (i : Instr) (s t : State),
    i = .init ∨ i = .update ∨ i = .compress ∨ i = .hmacInit ∨ i = .hmacUpdate →
    exec i s = .next t → t.outlen = 0 ∧ t.mem = s.mem) ∧
  (∀ (m : Memory) (a x : Nat) (bs : List Byte),
    (m.writeBytes a bs).readByte x = if a ≤ x ∧ x < a + bs.length then bs[x - a]? else m.readByte x) ∧
  ∀ (m : Memory) (a n : Nat) (bs : List Byte),
    m.readBytes a n = some bs ↔ (bs.length = n ∧ ∀ k, k < n → m.readByte (a + k) = bs[k]?)

/-- The context frame: COMPRESS changes V alone (R180); UPDATE and HMAC_UPDATE keep KB and CTX (R172, R207); FINISH keeps KB
and NBLK (R174); the base64 commands keep the whole context (R260, R262). -/
def Obligations.CommandsFrameContext : Prop :=
  (∀ s t : State, exec .compress s = .next t →
    t.kb = s.kb ∧ t.ctx = s.ctx ∧ t.hash.nblk = s.hash.nblk ∧ t.hash.buf = s.hash.buf) ∧
  (∀ (i : Instr) (s t : State), i = .update ∨ i = .hmacUpdate → exec i s = .next t →
    t.kb = s.kb ∧ t.ctx = s.ctx) ∧
  (∀ s t : State, exec .finish s = .next t → t.kb = s.kb ∧ t.hash.nblk = s.hash.nblk) ∧
  (∀ (alph : Alphabet) (i : Instr) (s t : State), i = .b64Enc alph ∨ i = .b64Dec alph → exec i s = .next t →
    t.hash = s.hash ∧ t.kb = s.kb ∧ t.ctx = s.ctx)

/-- R200: the transition table. Where it says STATE the command raises Error(STATE); otherwise a success leaves the phase
of the table, and an error leaves the phase as it was and is not STATE. -/
def Obligations.PhaseTransitionsFollowTheTable : Prop :=
  ∀ (i : Instr) (s : State),
    (phaseTable i s.ctx = none →
      exec i s = .next { s with outlen := 0, err := true, ecode := 2, busy := false }) ∧
    (∀ p t, phaseTable i s.ctx = some p → exec i s = .next t →
      (t.err = false → t.ctx = p) ∧ (t.err = true → t.ctx = s.ctx ∧ t.ecode ≠ 2))

/-- R62, R95, R280: a command stops exactly when it reads an unwritten byte. A stop is READ_UNWRITTEN, and then a range R95
lists for that very command holds an unwritten byte; the model refuses no command. And, command by command, one whose checks
before the read pass and whose own source or key range holds an unwritten byte stops so: it answers no next state. -/
def Obligations.CommandsStopOnlyOnUnwrittenBytes : Prop :=
  (∀ (i : Instr) (s : State),
    (∀ f, exec i s = .fault f → f = .readUnwritten ∧ ∃ r, r ∈ rangesRead i s ∧ HoldsUnwritten s r.1 r.2) ∧
    ∀ r, exec i s ≠ .refused r) ∧
  ∀ s : State,
    (s.ctx = .hashActive → InDmem s s.src.toNat s.len.toNat → HoldsUnwritten s s.src.toNat s.len.toNat →
      exec .update s = .fault .readUnwritten) ∧
    (InDmem s s.src.toNat s.len.toNat → InDmem s s.dst.toNat 32 → HoldsUnwritten s s.src.toNat s.len.toNat →
      exec .digest s = .fault .readUnwritten) ∧
    (s.ctx ≠ .hmacInner → s.len.toNat % 64 = 0 → InDmem s s.src.toNat s.len.toNat →
      HoldsUnwritten s s.src.toNat s.len.toNat → exec .compress s = .fault .readUnwritten) ∧
    (InDmem s s.kadr.toNat s.klen.toNat → HoldsUnwritten s s.kadr.toNat s.klen.toNat →
      exec .hmacInit s = .fault .readUnwritten) ∧
    (s.ctx = .hmacInner → InDmem s s.src.toNat s.len.toNat → HoldsUnwritten s s.src.toNat s.len.toNat →
      exec .hmacUpdate s = .fault .readUnwritten) ∧
    (InDmem s s.kadr.toNat s.klen.toNat → InDmem s s.src.toNat s.len.toNat → InDmem s s.dst.toNat 32 →
      HoldsUnwritten s s.kadr.toNat s.klen.toNat ∨ HoldsUnwritten s s.src.toNat s.len.toNat →
      exec .hmac s = .fault .readUnwritten) ∧
    ∀ alph : Alphabet, InDmem s s.src.toNat s.len.toNat → HoldsUnwritten s s.src.toNat s.len.toNat →
      exec (.b64Enc alph) s = .fault .readUnwritten ∧ exec (.b64Dec alph) s = .fault .readUnwritten

/-- R212, R218: after a successful INIT, DIGEST, HMAC_FINISH or HMAC no key block is left, after HMAC_FINISH and HMAC no
chaining value, counter or pending byte either. -/
def Obligations.KeyMaterialIsZeroed : Prop :=
  (∀ (i : Instr) (s t : State), i = .init ∨ i = .digest ∨ i = .hmacFinish ∨ i = .hmac →
    exec i s = .next t → t.err = false → t.kb = List.replicate 64 0#8) ∧
  ∀ (i : Instr) (s t : State), i = .hmacFinish ∨ i = .hmac → exec i s = .next t → t.err = false →
    t.hash = { v := ⟨0, 0, 0, 0, 0, 0, 0, 0⟩, nblk := 0, buf := [] }

/-- R218: a command that starts a new context forgets the old one: whatever key block and hash context an abandoned
computation held, the command ends in the same state. -/
def Obligations.RestartForgetsTheOldContext : Prop :=
  ∀ (i : Instr) (s t : State) (kb : List Byte) (h : HashState),
    i = .init ∨ i = .digest ∨ i = .hmacInit ∨ i = .hmac →
    exec i s = .next t → t.err = false → exec i { s with kb := kb, hash := h } = .next t

/-! ### The SM3 datapath -/

/-- R124, R130, R131, R132: the message schedule W, its recurrence with P1 written out, and W'; with the rotation of R10 and the
big-endian word of R12. -/
def Obligations.ExpanderFollowsTheRecurrence : Prop :=
  (∀ (x : Word) (n : Nat), rotl x n = x.rotateLeft (n % 32)) ∧
  (∀ (s : List Byte) (i : Nat), (be32 s i).toNat =
    (s.getD i 0).toNat * 2 ^ 24 + (s.getD (i + 1) 0).toNat * 2 ^ 16 + (s.getD (i + 2) 0).toNat * 2 ^ 8 +
      (s.getD (i + 3) 0).toNat) ∧
  ∀ blk : List Byte, (schedule blk).length = 68 ∧
    (∀ j, j < 16 → (schedule blk).getD j 0 = be32 blk (4 * j)) ∧
    (∀ j, 16 ≤ j → j ≤ 67 →
      let x := (schedule blk).getD (j - 16) 0 ^^^ (schedule blk).getD (j - 9) 0 ^^^ rotl ((schedule blk).getD (j - 3) 0) 15
      (schedule blk).getD j 0 =
        (x ^^^ rotl x 15 ^^^ rotl x 23) ^^^ rotl ((schedule blk).getD (j - 13) 0) 7 ^^^ (schedule blk).getD (j - 6) 0) ∧
    ∀ j, j ≤ 63 → schedule2 (schedule blk) j = (schedule blk).getD j 0 ^^^ (schedule blk).getD (j + 4) 0

/-- R137: COMPRESS_N applies CF to the blocks in order; with no block it returns V unchanged. R127: the ROM words, by the two
formulas and as the table the spec derives from them. R123, R125, R126, R133 to R136: CF(V, blk) is a chain of 64 rounds from V
with FF, GG, P0, the ROM word K[j], W[j] and W'[j] = W[j] ^ W[j+4] written out, and the feed-forward. Where the spec takes these
from general knowledge, notes/assumptions/16.md. -/
def Obligations.CompressNAppliesCfInOrder : Prop :=
  (∀ v : Chain, compressN v [] = v) ∧
  (∀ (v : Chain) (blk s : List Byte), blk.length = 64 → s.length % 64 = 0 →
    compressN v (blk ++ s) = compressN (cf v blk) s) ∧
  (∀ j, j ≤ 63 → kRom j = rotl (if j ≤ 15 then 0x79CC4519#32 else 0x7A879D8A#32) (j % 32) ∧ kRom j = roundConstants.getD j 0) ∧
  ∀ (v : Chain) (blk : List Byte), ∃ r : Nat → Chain, r 0 = v ∧
    (∀ j, j ≤ 63 →
      let a := (r j).v0
      let b := (r j).v1
      let c := (r j).v2
      let d := (r j).v3
      let e := (r j).v4
      let f := (r j).v5
      let g := (r j).v6
      let h := (r j).v7
      let ss1 := rotl (rotl a 12 + e + roundConstants.getD j 0) 7
      let ss2 := ss1 ^^^ rotl a 12
      let ffj := if j ≤ 15 then a ^^^ b ^^^ c else (a &&& b) ||| (a &&& c) ||| (b &&& c)
      let ggj := if j ≤ 15 then e ^^^ f ^^^ g else (e &&& f) ||| (~~~e &&& g)
      let tt1 := ffj + d + ss2 + ((schedule blk).getD j 0 ^^^ (schedule blk).getD (j + 4) 0)
      let tt2 := ggj + h + ss1 + (schedule blk).getD j 0
      r (j + 1) = ⟨tt1, a, rotl b 9, c, tt2 ^^^ rotl tt2 9 ^^^ rotl tt2 17, e, rotl f 19, g⟩) ∧
    cf v blk = ⟨(r 64).v0 ^^^ v.v0, (r 64).v1 ^^^ v.v1, (r 64).v2 ^^^ v.v2, (r 64).v3 ^^^ v.v3,
                (r 64).v4 ^^^ v.v4, (r 64).v5 ^^^ v.v5, (r 64).v6 ^^^ v.v6, (r 64).v7 ^^^ v.v7⟩

/-- R140: ABSORB compresses the whole blocks of BUF || data, counts each modulo 2^64 and keeps the remainder. -/
def Obligations.AbsorbCompressesWholeBlocks : Prop :=
  ∀ (h : HashState) (data : List Byte),
    let s := h.buf ++ data
    let n := s.length / 64
    (h.absorb data).v = compressN h.v (s.take (64 * n)) ∧
    (h.absorb data).nblk = h.nblk + BitVec.ofNat 64 n ∧
    (h.absorb data).buf = s.drop (64 * n) ∧
    (h.absorb data).blen = s.length - 64 * n ∧ (h.absorb data).blen < 64

/-- R141 (derived in the spec): absorbing a message in any chunks leaves the context that absorbing it at once leaves. -/
def Obligations.AbsorbIsChunkInvariant : Prop :=
  ∀ (h : HashState) (chunks : List (List Byte)), h.blen < 64 →
    chunks.foldl (fun g d => g.absorb d) h = h.absorb chunks.flatten

/-- R142: the padding is BUF, 0x80, zeros and the bit length, and fills one block for BLEN ≤ 55, two for BLEN 56..63. Byte k of
the last eight is bits 63-8k..56-8k of the length (R12). -/
def Obligations.PaddingFillsOneOrTwoBlocks : Prop :=
  ∀ h : HashState, h.blen < 64 →
    h.pad.length = (if h.blen ≤ 55 then 64 else 128) ∧
    h.pad.take (h.blen + 1) = h.buf ++ [0x80#8] ∧
    (∀ j, h.blen + 1 ≤ j → j < h.pad.length - 8 → h.pad[j]? = some 0#8) ∧
    h.pad.drop (h.pad.length - 8) = bytes64 (BitVec.ofNat 64 ((h.nblk.toNat * 64 + h.blen) * 8)) ∧
    ∀ k, k < 8 → h.pad[h.pad.length - 8 + k]? =
      some ((BitVec.ofNat 64 ((h.nblk.toNat * 64 + h.blen) * 8)).extractLsb' (56 - 8 * k) 8)

/-- R144 (derived in the spec): finalisation is one compression when BLEN ≤ 55 and two when 56 ≤ BLEN ≤ 63. R143, R67: it
returns the bytes of V, byte 4i + k being byte k of word i from the most significant, empties the buffer and keeps NBLK. R145:
SM3(m) is what a fresh context, with the IV of R121, returns after absorbing m. -/
def Obligations.FinalizeCompressesOnceOrTwice : Prop :=
  (∀ h : HashState, h.blen < 64 →
    (h.blen ≤ 55 → h.finalized.v = cf h.v h.pad) ∧
    (56 ≤ h.blen → h.finalized.v = cf (cf h.v (h.pad.take 64)) (h.pad.drop 64))) ∧
  (∀ h : HashState, h.digest = chainBytes h.finalized.v ∧ h.finalized.buf = [] ∧ h.finalized.nblk = h.nblk) ∧
  (∀ m : List Byte, sm3 m =
    (({ v := ⟨0x7380166F#32, 0x4914B2B9#32, 0x172442D7#32, 0xDA8A0600#32, 0xA96F30BC#32, 0x163138AA#32, 0xE38DEE4D#32,
              0xB0FB0E4E#32⟩, nblk := 0, buf := [] } : HashState).absorb m).digest) ∧
  ∀ (v : Chain) (i : Fin 8) (k : Fin 4),
    (chainBytes v)[4 * i.val + k.val]? = some ((chainWord v i).extractLsb' (24 - 8 * k.val) 8)

/-! ### HMAC -/

/-- R201, and R202's conversion of the inner pad into the outer pad, with the bytewise XOR of R11. -/
def Obligations.KeyBlockAndPadConversion : Prop :=
  (∀ k : List Byte, k.length ≤ 64 → keyBlock k = k ++ List.replicate (64 - k.length) 0#8) ∧
  (∀ k : List Byte, 64 < k.length → keyBlock k = sm3 k ++ List.replicate 32 0#8) ∧
  (∀ k : List Byte, (keyBlock k).length = 64) ∧
  (∀ kb : List Byte, xorAll 0x6A#8 (xorAll 0x36#8 kb) = xorAll 0x5c#8 kb) ∧
  ∀ (b : Byte) (s : List Byte) (i : Nat), (xorAll b s)[i]? = s[i]?.map (· ^^^ b)

/-- R220 (derived in the spec): the key-compression equivalence. -/
def Obligations.LongKeyEqualsItsDigest : Prop :=
  ∀ k m : List Byte, 64 < k.length → hmacSm3 k m = hmacSm3 (sm3 k) m

/-- R203 (derived in the spec): HMAC_SM3 in terms of SM3 and the key block. And for streamed messages: the key block absorbed, the
message absorbed in any chunks, finalised, and the outer hash of HMAC_FINISH run on it, give HMAC_SM3 of the key and the whole
message. -/
def Obligations.StreamedMacIsHmacSm3 : Prop :=
  (∀ k m : List Byte, hmacSm3 k m = sm3 (xorAll 0x5c#8 (keyBlock k) ++ sm3 (xorAll 0x36#8 (keyBlock k) ++ m))) ∧
  ∀ (k : List Byte) (chunks : List (List Byte)),
    outerMac (xorAll 0x36#8 (keyBlock k))
      (chunks.foldl (fun g d => g.absorb d) (innerStart (xorAll 0x36#8 (keyBlock k)))).digest =
    hmacSm3 k chunks.flatten

/-- R176's equivalence (derived in the spec): where DIGEST succeeds, INIT, UPDATE and FINISH with the same operands succeed
one after the other and end in the very state DIGEST ends in. -/
def Obligations.DigestEqualsInitUpdateFinish : Prop :=
  ∀ s t : State, exec .digest s = .next t → t.err = false →
    ∃ s1 s2, exec .init s = .next s1 ∧ exec .update s1 = .next s2 ∧ exec .finish s2 = .next t

/-- R215's equivalence (derived in the spec): where HMAC succeeds, HMAC_INIT, HMAC_UPDATE and HMAC_FINISH with the same
operands succeed one after the other and end in the very state HMAC ends in. -/
def Obligations.HmacEqualsInitUpdateFinish : Prop :=
  ∀ s t : State, exec .hmac s = .next t → t.err = false →
    ∃ s1 s2, exec .hmacInit s = .next s1 ∧ exec .hmacUpdate s1 = .next s2 ∧ exec .hmacFinish s2 = .next t

/-! ### Base64 -/

/-- R254 (derived in the spec): decoding an encoding gives the bytes back, for both alphabets. -/
def Obligations.Base64RoundTrip : Prop :=
  ∀ (alph : Alphabet) (b : List Byte), b64Decode alph (b64Encode alph b) = .ok b

/-- R254 (derived in the spec): the URL-safe text is the standard one with `+`, `/` replaced by `-`, `_` and the trailing
`=` removed. -/
def Obligations.UrlTextFromStandardText : Prop :=
  ∀ b : List Byte, b64Encode .url b =
    (nonPadding (b64Encode .std b)).map fun c => if c = 0x2B#8 then 0x2D#8 else if c = 0x2F#8 then 0x5F#8 else c

/-- R241 and R253 (derived in the spec): the encoded and the decoded length. R240: the text of a group of three, two and one
bytes, with its `=`. R252: the bytes of a group of four, three and two characters, given by their sextets, before any trailing
run of `=`; the bits below the last whole byte are dropped, whatever they are. -/
def Obligations.Base64Lengths : Prop :=
  (∀ b : List Byte, (b64Encode .std b).length = 4 * ((b.length + 2) / 3)) ∧
  (∀ b : List Byte, (b64Encode .url b).length =
    4 * (b.length / 3) + (if b.length % 3 = 0 then 0 else if b.length % 3 = 1 then 2 else 3)) ∧
  (∀ (alph : Alphabet) (t r : List Byte), b64Decode alph t = .ok r →
    r.length = 3 * ((nonPadding t).length / 4) +
      (if (nonPadding t).length % 4 = 0 then 0 else if (nonPadding t).length % 4 = 2 then 1 else 2)) ∧
  (∀ (alph : Alphabet) (a b c : Byte) (rest : List Byte),
    let pads := fun k : Nat => match alph with
      | .std => List.replicate k 0x3D#8
      | .url => []
    let x3 : BitVec 24 := a ++ b ++ c
    let x2 : BitVec 24 := a ++ b ++ 0#8
    let x1 : BitVec 24 := a ++ 0#8 ++ 0#8
    b64Encode alph [] = [] ∧
    b64Encode alph [a] = [encRom alph (x1.extractLsb' 18 6), encRom alph (x1.extractLsb' 12 6)] ++ pads 2 ∧
    b64Encode alph [a, b] = [encRom alph (x2.extractLsb' 18 6), encRom alph (x2.extractLsb' 12 6),
      encRom alph (x2.extractLsb' 6 6)] ++ pads 1 ∧
    b64Encode alph (a :: b :: c :: rest) = [encRom alph (x3.extractLsb' 18 6), encRom alph (x3.extractLsb' 12 6),
      encRom alph (x3.extractLsb' 6 6), encRom alph (x3.extractLsb' 0 6)] ++ b64Encode alph rest) ∧
  ∀ (alph : Alphabet) (p q r s : BitVec 6) (k : Nat) (t : List Byte),
    let x4 : BitVec 24 := p ++ q ++ r ++ s
    let x3 : BitVec 24 := p ++ q ++ r ++ 0#6
    let x2 : BitVec 24 := p ++ q ++ 0#6 ++ 0#6
    b64Decode alph (List.replicate k 0x3D#8) = .ok [] ∧
    b64Decode alph ([encRom alph p, encRom alph q] ++ List.replicate k 0x3D#8) = .ok [x2.extractLsb' 16 8] ∧
    b64Decode alph ([encRom alph p, encRom alph q, encRom alph r] ++ List.replicate k 0x3D#8) =
      .ok [x3.extractLsb' 16 8, x3.extractLsb' 8 8] ∧
    b64Decode alph (encRom alph p :: encRom alph q :: encRom alph r :: encRom alph s :: t) =
      match b64Decode alph t with
      | .error e => .error e
      | .ok bs => .ok ([x4.extractLsb' 16 8, x4.extractLsb' 8 8, x4.extractLsb' 0 8] ++ bs)

/-- R233: the decode ROM inverts the encode ROM, holds 77 at every other byte, and is the explicit list. So the encode ROM's
codes are those of the table of R232 (which the spec derives from R231, whose order of the characters it marks as general
knowledge). -/
def Obligations.DecodeRomInvertsEncodeRom : Prop :=
  (∀ (alph : Alphabet) (v : BitVec 6), (decRom alph (encRom alph v)).toNat = v.toNat) ∧
  (∀ (alph : Alphabet) (c : Byte), (∀ v : BitVec 6, encRom alph v ≠ c) → decRom alph c = 77#8) ∧
  (∀ (alph : Alphabet) (v : BitVec 6), (encRom alph v).toNat =
    if v.toNat ≤ 25 then 0x41 + v.toNat
    else if v.toNat ≤ 51 then 0x61 + (v.toNat - 26)
    else if v.toNat ≤ 61 then 0x30 + (v.toNat - 52)
    else match alph with
      | .std => if v.toNat = 62 then 0x2B else 0x2F
      | .url => if v.toNat = 62 then 0x2D else 0x5F) ∧
  ∀ (alph : Alphabet) (c : Byte), (decRom alph c).toNat =
    if 0x41 ≤ c.toNat ∧ c.toNat ≤ 0x5A then c.toNat - 0x41
    else if 0x61 ≤ c.toNat ∧ c.toNat ≤ 0x7A then c.toNat - 0x61 + 26
    else if 0x30 ≤ c.toNat ∧ c.toNat ≤ 0x39 then c.toNat - 0x30 + 52
    else match alph with
      | .std => if c.toNat = 0x2B then 62 else if c.toNat = 0x2F then 63 else 77
      | .url => if c.toNat = 0x2D then 62 else if c.toNat = 0x5F then 63 else 77

/-- R251: the two decode errors, their order, and that every other text decodes. -/
def Obligations.DecodeFailsExactlyWhenInvalid : Prop :=
  ∀ (alph : Alphabet) (t : List Byte),
    (b64Decode alph t = .error .decodeChar ↔ ∃ c, c ∈ nonPadding t ∧ decRom alph c = 77#8) ∧
    (b64Decode alph t = .error .decodeLen ↔
      (∀ c, c ∈ nonPadding t → decRom alph c ≠ 77#8) ∧ (nonPadding t).length % 4 = 1) ∧
    ((∀ c, c ∈ nonPadding t → decRom alph c ≠ 77#8) → (nonPadding t).length % 4 ≠ 1 →
      ∃ r, b64Decode alph t = .ok r)

/-- R250: the non-padding part is the text without its whole trailing run of `=`. R250's words "the largest index" are read
as the longest run, as its next sentence has it (DEDUCED, notes/assumptions/19.md). -/
def Obligations.NonPaddingDropsTheTrailingRun : Prop :=
  ∀ t : List Byte,
    (∃ k, t = nonPadding t ++ List.replicate k 0x3D#8) ∧ (nonPadding t).getLast? ≠ some 0x3D#8

/-! ### The host's side -/

/-- R21 to R31: what a 32-bit host read returns at every offset that is a multiple of 4; a read changes nothing but the
value the host has read (R71). -/
def Obligations.HostReadsReturnTheRegisters : Prop :=
  ∀ s : State,
    let reads := fun (off : BitVec 8) (w : Word) =>
      hostAccess (.readReg 32 off) s = .next { s with rdata := some w }
    reads 0x00#8 0 ∧ reads 0x04#8 (statusWord s) ∧ reads 0x08#8 s.src ∧ reads 0x0C#8 s.len ∧ reads 0x10#8 s.dst ∧
    reads 0x14#8 s.kadr ∧ reads 0x18#8 s.klen ∧ reads 0x1C#8 s.outlen ∧
    reads 0x40#8 (s.hash.nblk.extractLsb' 0 32) ∧ reads 0x44#8 (s.hash.nblk.extractLsb' 32 32) ∧
    (s.hash.blen < 64 → reads 0x48#8 (BitVec.ofNat 32 s.hash.blen)) ∧
    (∀ off : BitVec 8, off.toNat % 4 = 0 → 0x4C ≤ off.toNat → reads off 0)

/-- R23, R24: the fields of STATUS and its reserved bits. -/
def Obligations.StatusWordHasTheFields : Prop :=
  ∀ s : State,
    (statusWord s).getLsbD 0 = s.busy ∧ (statusWord s).getLsbD 1 = s.err ∧
    (statusWord s).extractLsb' 2 2 = 0#2 ∧ (statusWord s).extractLsb' 4 4 = s.ecode ∧
    (statusWord s).extractLsb' 8 3 =
      (match s.ctx with | .idle => 0#3 | .hashActive => 1#3 | .hashDone => 2#3 | .hmacInner => 3#3 | .hmacDone => 4#3) ∧
    (statusWord s).getLsbD 11 = false ∧ (statusWord s).getLsbD 12 = s.wdrop ∧ (statusWord s).extractLsb' 13 19 = 0#19

/-- R22: a CMD write while BUSY = 0 latches the word and sets BUSY, leaving every other register; while BUSY = 1 it is
dropped and sets WDROP; CMD reads 0. -/
def Obligations.CmdWriteStartsACommand : Prop :=
  ∀ (s : State) (c : Word),
    (s.busy = false → hostAccess (.writeReg 32 0x00#8 c) s = .next { s with cmdl := c, busy := true }) ∧
    (s.busy = true → hostAccess (.writeReg 32 0x00#8 c) s = .next { s with wdrop := true }) ∧
    hostAccess (.readReg 32 0x00#8) s = .next { s with rdata := some 0 }

/-- R26: an operand register holds what the host wrote while BUSY = 0, whole, and no command writes it. -/
def Obligations.OperandRegistersHoldWhatIsWritten : Prop :=
  (∀ (s : State) (w : Word), s.busy = false →
    hostAccess (.writeReg 32 0x08#8 w) s = .next { s with src := w } ∧
    hostAccess (.writeReg 32 0x0C#8 w) s = .next { s with len := w } ∧
    hostAccess (.writeReg 32 0x10#8 w) s = .next { s with dst := w } ∧
    hostAccess (.writeReg 32 0x14#8 w) s = .next { s with kadr := w } ∧
    hostAccess (.writeReg 32 0x18#8 w) s = .next { s with klen := w }) ∧
  (∀ (off : BitVec 8) (s t : State) (w : Word), s.busy = false → off ∈ [0x08#8, 0x0C#8, 0x10#8, 0x14#8, 0x18#8] →
    hostAccess (.writeReg 32 off w) s = .next t → hostAccess (.readReg 32 off) t = .next { t with rdata := some w }) ∧
  ∀ (i : Instr) (s t : State), exec i s = .next t →
    t.src = s.src ∧ t.len = s.len ∧ t.dst = s.dst ∧ t.kadr = s.kadr ∧ t.klen = s.klen

/-- R25: the writes that are dropped and set WDROP, the write-one-to-clear of STATUS, and that no command changes WDROP. -/
def Obligations.DroppedWritesSetWdrop : Prop :=
  (∀ (off : BitVec 8) (s : State) (w : Word), s.busy = true → off.toNat % 4 = 0 →
    (off.toNat = 0 ∨ (0x08 ≤ off.toNat ∧ off.toNat ≤ 0x18) ∨ (0x20 ≤ off.toNat ∧ off.toNat ≤ 0x3C)) →
    hostAccess (.writeReg 32 off w) s = .next { s with wdrop := true }) ∧
  (∀ (off : BitVec 8) (s : State) (w : Word), s.ctx = .hmacInner → off.toNat % 4 = 0 →
    0x20 ≤ off.toNat → off.toNat ≤ 0x3C →
    hostAccess (.writeReg 32 off w) s = .next { s with wdrop := true }) ∧
  (∀ (s : State) (w : Word), w.getLsbD 12 = true →
    hostAccess (.writeReg 32 0x04#8 w) s = .next { s with wdrop := false }) ∧
  (∀ (s : State) (w : Word), w.getLsbD 12 = false → hostAccess (.writeReg 32 0x04#8 w) s = .next s) ∧
  ∀ (i : Instr) (s t : State), exec i s = .next t → t.wdrop = s.wdrop

/-- R31: reserved offsets read 0 and ignore writes; writes to OUTLEN, NBLK_LO, NBLK_HI, BLEN and the read-only bits of STATUS
are ignored; none of them sets WDROP. -/
def Obligations.ReadOnlyAndReservedIgnoreWrites : Prop :=
  (∀ (off : BitVec 8) (s : State) (w : Word), off.toNat % 4 = 0 →
    (off.toNat = 0x1C ∨ 0x40 ≤ off.toNat) →
    hostAccess (.writeReg 32 off w) s = .next s ∧
    (0x4C ≤ off.toNat → hostAccess (.readReg 32 off) s = .next { s with rdata := some 0 })) ∧
  ∀ (s : State) (w : Word),
    hostAccess (.writeReg 32 0x04#8 w) s = .next { s with wdrop := s.wdrop && !w.getLsbD 12 }

/-- R28: V0..V7. Outside HMAC_INNER a read returns ctx.V[i] and a write while BUSY = 0 sets it and no other word; in
HMAC_INNER a read returns 0 and a write is dropped and sets WDROP. -/
def Obligations.ChainingValueAccess : Prop :=
  ∀ (s : State) (i j : Fin 8) (w : Word),
    (s.ctx ≠ .hmacInner →
      hostAccess (.readReg 32 (offsetOf (.v i))) s = .next { s with rdata := some (chainWord s.hash.v i) }) ∧
    (s.ctx ≠ .hmacInner → s.busy = false → ∃ v : Chain,
      hostAccess (.writeReg 32 (offsetOf (.v i)) w) s = .next { s with hash := { s.hash with v := v } } ∧
      chainWord v j = if j = i then w else chainWord s.hash.v j) ∧
    (s.ctx = .hmacInner →
      hostAccess (.readReg 32 (offsetOf (.v i))) s = .next { s with rdata := some 0 } ∧
      hostAccess (.writeReg 32 (offsetOf (.v i)) w) s = .next { s with wdrop := true }) ∧
    offsetOf (.v i) = BitVec.ofNat 8 (0x20 + 4 * i.val) ∧
    [0, 1, 2, 3, 4, 5, 6, 7].map (chainWord s.hash.v) =
      [s.hash.v.v0, s.hash.v.v1, s.hash.v.v2, s.hash.v.v3, s.hash.v.v4, s.hash.v.v5, s.hash.v.v6, s.hash.v.v7]

/-- R28, R36, R73: no host step tells a live HMAC's key block or chaining value: two states that differ only in them answer
every host access alike, and stay different only in them. -/
def Obligations.LiveHmacIsInvisibleToTheHost : Prop :=
  ∀ (h : HostStep) (s : State) (kb : List Byte) (v : Chain), s.ctx = .hmacInner →
    hostAccess h (replaceSecret kb v s) = mapNext (replaceSecret kb v) (hostAccess h s)

/-- R65, R281: a register access of another width or off a multiple of 4 is refused; at a multiple of 4 with 32 bits it
is not. -/
def Obligations.RegisterAccessShape : Prop :=
  ∀ (s : State) (width : Nat) (off : BitVec 8) (w : Word),
    ((width ≠ 32 ∨ off.toNat % 4 ≠ 0) →
      hostAccess (.readReg width off) s = .refused .registerAccess ∧
      hostAccess (.writeReg width off w) s = .refused .registerAccess) ∧
    (width = 32 → off.toNat % 4 = 0 →
      (∃ t, hostAccess (.readReg width off) s = .next t) ∧ ∃ t, hostAccess (.writeReg width off w) s = .next t)

/-- R66, R310, R281: host DMEM accesses. In range and not busy: a read returns the written byte or records
READ_UNWRITTEN, a write marks that byte written and leaves every other one; busy: HAZARD_DMEM_BUSY is recorded; out of
range: refused. The order of the
stops, that a fault is a next state with only the record changed, and that a write while busy leaves DMEM as it was in that
state are the model's choices (notes/assumptions/11.md, 4.md, 21.md). -/
def Obligations.HostDmemAccesses : Prop :=
  ∀ (s : State) (a : Nat) (b : Byte), s.faults = [] →
    (s.cfg.dmemSize ≤ a →
      hostAccess (.readMem a) s = .refused .dmemAddress ∧ hostAccess (.writeMem a b) s = .refused .dmemAddress) ∧
    (a < s.cfg.dmemSize → s.busy = false →
      (s.mem.readByte a = some b →
        hostAccess (.readMem a) s = .next { s with rdata := some (BitVec.setWidth 32 b) }) ∧
      (s.mem.readByte a = none → hostAccess (.readMem a) s = .next { s with faults := [.readUnwritten] }) ∧
      ∃ m : Memory, hostAccess (.writeMem a b) s = .next { s with mem := m } ∧
        ∀ x, m.readByte x = if x = a then some b else s.mem.readByte x) ∧
    (a < s.cfg.dmemSize → s.busy = true →
      (∃ fs, Fault.hazardDmemBusy ∈ fs ∧ hostAccess (.readMem a) s = .next { s with faults := fs }) ∧
      hostAccess (.writeMem a b) s = .next { s with faults := [.hazardDmemBusy] })

/-! ### Reset -/

/-- R44: the machine after power-on reset. -/
def Obligations.ResetValues : Prop :=
  State.reset.cmdl = 0 ∧ State.reset.busy = false ∧ State.reset.err = false ∧ State.reset.ecode = 0 ∧
  State.reset.ctx = .idle ∧ State.reset.wdrop = false ∧ statusWord State.reset = 0 ∧
  State.reset.src = 0 ∧ State.reset.len = 0 ∧ State.reset.dst = 0 ∧ State.reset.kadr = 0 ∧ State.reset.klen = 0 ∧
  State.reset.outlen = 0 ∧ State.reset.hash.v = ⟨0, 0, 0, 0, 0, 0, 0, 0⟩ ∧ State.reset.hash.nblk = 0 ∧
  State.reset.hash.buf = [] ∧ State.reset.hash.blen = 0 ∧ State.reset.kb = List.replicate 64 0#8 ∧
  (∀ a, State.reset.mem.readByte a = none) ∧ State.reset.faults = []

/-- R300, R301: the reset input. When its turn comes the step is `resetTurn`. Every register and context field takes its reset
value, the fault record stays whatever it holds, DMEM stays but for the destination range (R95) of a pending command, which
becomes unwritten. For a pending B64_DEC whose source is outside DMEM, does not decode or is partly unwritten the range is the
model's choice (DESIGN CHOICE, notes/assumptions/9.md): empty in the first two cases, the largest a text of LEN characters can
need in the third. That the host's side stays is notes/assumptions/10.md. -/
def Obligations.ResetInputEffect : Prop :=
  (∀ s : State, s.faults = [] → nextTurn s = .reset → step s = .next (resetTurn { s with sched := s.sched.tail })) ∧
  ∀ s : State, ∃ m : Memory,
    resetTurn s = { State.reset with
      mem := m, faults := s.faults, cfg := s.cfg, host := s.host, sched := s.sched, rdata := s.rdata } ∧
    (s.busy = false → m = s.mem) ∧
    (∀ e, decode s.cmdl = .error e → ∀ x, m.readByte x = s.mem.readByte x) ∧
    (∀ i, decode s.cmdl = .ok i → i = .init ∨ i = .update ∨ i = .compress ∨ i = .hmacInit ∨ i = .hmacUpdate →
      ∀ x, m.readByte x = s.mem.readByte x) ∧
    (∀ i, s.busy = true → decode s.cmdl = .ok i → i = .finish ∨ i = .digest ∨ i = .hmacFinish ∨ i = .hmac →
      ∀ x, m.readByte x = if s.dst.toNat ≤ x ∧ x < s.dst.toNat + 32 then none else s.mem.readByte x) ∧
    (∀ alph, s.busy = true → decode s.cmdl = .ok (.b64Enc alph) →
      ∀ x, m.readByte x =
        if s.dst.toNat ≤ x ∧ x < s.dst.toNat +
          (match alph with
            | .std => 4 * ((s.len.toNat + 2) / 3)
            | .url => 4 * (s.len.toNat / 3) +
                (if s.len.toNat % 3 = 0 then 0 else if s.len.toNat % 3 = 1 then 2 else 3)) then none
        else s.mem.readByte x) ∧
    ∀ alph, s.busy = true → decode s.cmdl = .ok (.b64Dec alph) →
      (¬InDmem s s.src.toNat s.len.toNat → ∀ x, m.readByte x = s.mem.readByte x) ∧
      (InDmem s s.src.toNat s.len.toNat →
        (∀ t r, s.mem.readBytes s.src.toNat s.len.toNat = some t → b64Decode alph t = .ok r →
          ∀ x, m.readByte x = if s.dst.toNat ≤ x ∧ x < s.dst.toNat + r.length then none else s.mem.readByte x) ∧
        (∀ t e, s.mem.readBytes s.src.toNat s.len.toNat = some t → b64Decode alph t = .error e →
          ∀ x, m.readByte x = s.mem.readByte x) ∧
        (s.mem.readBytes s.src.toNat s.len.toNat = none →
          ∀ x, m.readByte x =
            if s.dst.toNat ≤ x ∧ x < s.dst.toNat + (3 * (s.len.toNat / 4) +
              (if s.len.toNat % 4 = 2 then 1 else if s.len.toNat % 4 = 3 then 2 else 0)) then none
            else s.mem.readByte x))

/-- R303 (derived in the spec): the four stream commands raise Error(STATE) right after reset. -/
def Obligations.StreamCommandsErrAfterReset : Prop :=
  ∀ i : Instr, i = .update ∨ i = .finish ∨ i = .hmacUpdate ∨ i = .hmacFinish →
    ∃ t, step (State.reset.withFetchWord 32 (encode i).toNat) = .next t ∧ statusWord t = 0x00000022#32

/-! ### Invariants -/

/-- R45: the invariant holds at reset. -/
def Obligations.InvariantHoldsAtReset : Prop := MachineInv State.reset

/-- R45, R61: every step, of the host, the engine or the reset input, keeps the invariant: DMEM canonical and below
DMEM_SIZE, fewer than 64 bytes pending, a 64-byte key block that is zero unless an HMAC is live, finished contexts empty,
ECODE and OUTLEN consistent with ERR. -/
def Obligations.EveryStepKeepsTheInvariant : Prop :=
  ∀ s t : State, MachineInv s → step s = .next t → MachineInv t
end

