-- ==== Sys2Proof/Laws/Codec.lean ====
section
/-! SUPPORT. What the base64 functions do: the shapes of a group and the three outcomes of a decode. -/

namespace Sys2Proof.Machine

@[simp] theorem groupChars_length (alph : Alphabet) (x : BitVec 24) : (groupChars alph x).length = 4 := rfl
@[simp] theorem groupBytes_length (p q r s : BitVec 6) : (groupBytes p q r s).length = 3 := rfl

/-- No character of a text's body is the pad character (R231). -/
theorem encRom_ne_padChar (alph : Alphabet) (v : BitVec 6) : encRom alph v ≠ padChar := by
  revert v; cases alph <;> decide

/-- A character of the alphabet has its own value as sextet (R232, R233). -/
theorem sextet_encRom (alph : Alphabet) (v : BitVec 6) : sextet alph (encRom alph v) = v := by
  revert v; cases alph <;> decide

/-- A character of the alphabet is no sentinel (R233). -/
theorem decRom_encRom_ne_sentinel (alph : Alphabet) (v : BitVec 6) : decRom alph (encRom alph v) ≠ sentinel := by
  revert v; cases alph <;> decide

/-- A character that is no pad stays in front of the non-padding part of what follows it (R250). -/
theorem nonPadding_cons {c : Byte} (h : c ≠ padChar) (t : List Byte) : nonPadding (c :: t) = c :: nonPadding t := by
  unfold nonPadding
  rw [List.reverse_cons, List.dropWhile_append]
  split
  · rename_i he
    rw [List.isEmpty_iff.1 he]
    simp [h]
  · simp

/-- A text of pads alone has no body (R250). -/
@[simp] theorem nonPadding_replicate (k : Nat) : nonPadding (List.replicate k padChar) = [] := by
  simp [nonPadding]

/-- An alphabet character before a text keeps it in its body (R231, R250). -/
@[simp] theorem nonPadding_encRom_cons (alph : Alphabet) (v : BitVec 6) (t : List Byte) :
    nonPadding (encRom alph v :: t) = encRom alph v :: nonPadding t := nonPadding_cons (encRom_ne_padChar alph v) t

/-- The URL-safe length by the residue (R241). -/
theorem encodedLength_url (n : Nat) :
    encodedLength .url n = 4 * (n / 3) + (if n % 3 = 0 then 0 else if n % 3 = 1 then 2 else 3) := by
  unfold encodedLength
  rcases (show n % 3 = 0 ∨ n % 3 = 1 ∨ n % 3 = 2 by omega) with h | h | h <;> simp [h]

/-- The decoded length by the residue (R253). -/
theorem decodedLength_eq (n : Nat) :
    decodedLength n = 3 * (n / 4) + (if n % 4 = 2 then 1 else if n % 4 = 3 then 2 else 0) := by
  unfold decodedLength
  rcases (show n % 4 = 0 ∨ n % 4 = 1 ∨ n % 4 = 2 ∨ n % 4 = 3 by omega) with h | h | h | h <;> simp [h]

/-- The three outcomes of B64DEC (R250 to R252). -/
theorem b64Decode_cases (alph : Alphabet) (t : List Byte) :
    b64Decode alph t = .error .decodeChar ∨ b64Decode alph t = .error .decodeLen ∨
      b64Decode alph t = .ok (unpack alph (nonPadding t)) := by
  unfold b64Decode
  split
  · exact .inl rfl
  · split
    · exact .inr (.inl rfl)
    · exact .inr (.inr rfl)

end Sys2Proof.Machine
end

