-- ==== Sys2Proof/Laws/Memory.lean ====
section
/-! SUPPORT. The laws of DMEM: read after write, frames, and that every memory operation keeps the canonical form. -/

namespace Sys2Proof.Machine

@[simp] theorem readByte_nil (a : Nat) : Memory.readByte [] a = none := rfl

theorem readByte_cons (c : Host.Cell) (m : Memory) (a : Nat) :
    Memory.readByte (c :: m) a = if c.1 = a then some c.2 else Memory.readByte m a := rfl

theorem readByte_writeByte (m : Memory) (a x : Nat) (b : Byte) :
    (m.writeByte a b).readByte x = if x = a then some b else m.readByte x := by
  induction m with
  | nil => simp [Memory.writeByte, readByte_cons, eq_comm]
  | cons c cs ih =>
    unfold Memory.writeByte
    split
    · by_cases hx : x = a
      · simp [readByte_cons, hx]
      · simp [readByte_cons, hx, Ne.symm hx]
    · split
      · rename_i hc
        by_cases hx : x = a
        · simp [readByte_cons, hx]
        · simp [readByte_cons, hx, Ne.symm hx, hc]
      · rename_i hc
        rw [readByte_cons, ih, readByte_cons]
        by_cases hx : x = a
        · subst hx; simp [hc]
        · simp [hx]

@[simp] theorem readByte_writeByte_self (m : Memory) (a : Nat) (b : Byte) :
    (m.writeByte a b).readByte a = some b := by simp [readByte_writeByte]

theorem readByte_writeByte_other {a x : Nat} (m : Memory) (b : Byte) (h : x ≠ a) :
    (m.writeByte a b).readByte x = m.readByte x := by simp [readByte_writeByte, h]

theorem mem_writeByte {m : Memory} {a : Nat} {b : Byte} {c : Host.Cell} (h : c ∈ m.writeByte a b) :
    c = (a, b) ∨ c ∈ m := by
  induction m with
  | nil => simpa [Memory.writeByte] using h
  | cons d ds ih =>
    unfold Memory.writeByte at h
    split at h
    · simpa using h
    · split at h
      · rcases List.mem_cons.mp h with h | h
        · exact .inl h
        · exact .inr (List.mem_cons_of_mem _ h)
      · rcases List.mem_cons.mp h with h | h
        · exact .inr (h ▸ List.mem_cons_self)
        · exact (ih h).imp id (List.mem_cons_of_mem _)

theorem writeByte_wf {m : Memory} (a : Nat) (b : Byte) (h : m.wf) : (m.writeByte a b).wf := by
  induction m with
  | nil => simp [Memory.writeByte, Memory.wf]
  | cons d ds ih =>
    have ⟨hd, hds⟩ := List.pairwise_cons.mp h
    unfold Memory.writeByte
    split
    · rename_i hlt
      refine List.pairwise_cons.mpr ⟨fun c hc => ?_, h⟩
      rcases List.mem_cons.mp hc with rfl | hc
      · exact hlt
      · exact lt_trans hlt (hd c hc)
    · split
      · rename_i heq
        exact List.pairwise_cons.mpr ⟨fun c hc => by simpa [heq] using hd c hc, hds⟩
      · rename_i h1 h2
        refine List.pairwise_cons.mpr ⟨fun c hc => ?_, ih hds⟩
        rcases mem_writeByte hc with rfl | hc
        · simp; omega
        · exact hd c hc

theorem writeBytes_wf {m : Memory} (a : Nat) (bs : List Byte) (h : m.wf) : (m.writeBytes a bs).wf := by
  induction bs generalizing m a with
  | nil => exact h
  | cons b bs ih => exact ih (a + 1) (writeByte_wf a b h)

theorem unwrite_wf {m : Memory} (a n : Nat) (h : m.wf) : (m.unwrite a n).wf := List.Pairwise.filter _ h

theorem mem_writeBytes {m : Memory} {a : Nat} {bs : List Byte} {c : Host.Cell} (h : c ∈ m.writeBytes a bs) :
    (a ≤ c.1 ∧ c.1 < a + bs.length) ∨ c ∈ m := by
  induction bs generalizing m a with
  | nil => exact .inr h
  | cons b bs ih =>
    rcases ih h with h | h
    · left; simp only [List.length_cons]; omega
    · rcases mem_writeByte h with rfl | h
      · left; simp
      · exact .inr h

theorem mem_unwrite {m : Memory} {a n : Nat} {c : Host.Cell} (h : c ∈ m.unwrite a n) : c ∈ m :=
  (List.mem_filter.mp h).1

/-- What a byte reads as after `MemWrite` (R63): the written byte inside the range, as before outside it. -/
theorem readByte_writeBytes (m : Memory) (a x : Nat) (bs : List Byte) :
    (m.writeBytes a bs).readByte x = if a ≤ x ∧ x < a + bs.length then bs[x - a]? else m.readByte x := by
  induction bs generalizing m a with
  | nil => simp [Memory.writeBytes]
  | cons b bs ih =>
    rw [Memory.writeBytes, ih, readByte_writeByte]
    by_cases hx : x = a
    · subst hx; simp
    · by_cases h1 : a + 1 ≤ x ∧ x < a + 1 + bs.length
      · have h2 : a ≤ x ∧ x < a + (b :: bs).length := by simp; omega
        rw [if_pos h1, if_pos h2, show x - a = (x - (a + 1)) + 1 by omega, List.getElem?_cons_succ]
      · have h2 : ¬(a ≤ x ∧ x < a + (b :: bs).length) := by simp; omega
        rw [if_neg h1, if_neg h2, if_neg hx]

theorem readByte_writeBytes_outside {m : Memory} {a x : Nat} {bs : List Byte} (h : x < a ∨ a + bs.length ≤ x) :
    (m.writeBytes a bs).readByte x = m.readByte x := by
  rw [readByte_writeBytes, if_neg (by omega)]

theorem readByte_unwrite (m : Memory) (a n x : Nat) :
    (m.unwrite a n).readByte x = if a ≤ x ∧ x < a + n then none else m.readByte x := by
  induction m with
  | nil => simp [Memory.unwrite]
  | cons c cs ih =>
    simp only [Memory.unwrite, List.filter_cons] at ih ⊢
    by_cases hc : a ≤ c.1 ∧ c.1 < a + n
    · rw [decide_eq_true hc]
      simp only [Bool.not_true, Bool.false_eq_true, if_false, ih, readByte_cons]
      split
      · rfl
      · split
        · rename_i h1 h2; exact absurd (h2 ▸ hc) h1
        · rfl
    · rw [decide_eq_false hc]
      simp only [Bool.not_false, if_true, readByte_cons, ih]
      split
      · rename_i h; rw [if_neg (h ▸ hc)]
      · rfl

/-- `MemRead` answers exactly when every byte is written, with those bytes in order (R62). -/
theorem readBytes_eq_some {m : Memory} {a n : Nat} {bs : List Byte} (h : m.readBytes a n = some bs) :
    bs.length = n ∧ ∀ k, k < n → m.readByte (a + k) = bs[k]? := by
  induction n generalizing a bs with
  | zero => simp [Memory.readBytes] at h; simp [← h]
  | succ n ih =>
    unfold Memory.readBytes at h
    split at h
    · rename_i b bs' hb hbs
      obtain rfl := Option.some.inj h
      have ⟨hl, hk⟩ := ih hbs
      refine ⟨by simp [hl], fun k hk' => ?_⟩
      cases k with
      | zero => simpa using hb
      | succ k => simpa [show a + (k + 1) = a + 1 + k by omega] using hk k (by omega)
    · cases h

theorem readBytes_length {m : Memory} {a n : Nat} {bs : List Byte} (h : m.readBytes a n = some bs) :
    bs.length = n := (readBytes_eq_some h).1

theorem readBytes_isSome {m : Memory} {a n : Nat} (h : ∀ k, k < n → (m.readByte (a + k)).isSome) :
    ∃ bs, m.readBytes a n = some bs := by
  induction n generalizing a with
  | zero => exact ⟨[], rfl⟩
  | succ n ih =>
    obtain ⟨b, hb⟩ := Option.isSome_iff_exists.mp (h 0 (by omega))
    obtain ⟨bs, hbs⟩ := @ih (a + 1) fun k hk => by
      have := h (k + 1) (by omega)
      rwa [show a + (k + 1) = a + 1 + k by omega] at this
    exact ⟨b :: bs, by simp only [Memory.readBytes, hbs]; simp at hb; rw [hb]⟩

theorem readBytes_none {m : Memory} {a n : Nat} (h : m.readBytes a n = none) :
    ∃ k, k < n ∧ m.readByte (a + k) = none := by
  by_contra hc
  push Not at hc
  obtain ⟨bs, hbs⟩ := readBytes_isSome (m := m) (a := a) (n := n) fun k hk =>
    Option.isSome_iff_ne_none.mpr (hc k hk)
  simp [hbs] at h

theorem readBytes_add {m : Memory} {a n k : Nat} {bs cs : List Byte} (h1 : m.readBytes a n = some bs)
    (h2 : m.readBytes (a + n) k = some cs) : m.readBytes a (n + k) = some (bs ++ cs) := by
  induction n generalizing a bs with
  | zero => simp [Memory.readBytes] at h1; subst h1; simpa using h2
  | succ n ih =>
    unfold Memory.readBytes at h1
    split at h1
    · rename_i b bs' hb hbs
      obtain rfl := Option.some.inj h1
      rw [show n + 1 + k = (n + k) + 1 by omega]
      unfold Memory.readBytes
      rw [hb, ih hbs (by rwa [show a + 1 + n = a + (n + 1) by omega])]
      rfl
    · cases h1

/-- Bytes just written are the bytes read (R62, R63). -/
theorem readBytes_writeBytes (m : Memory) (a : Nat) (bs : List Byte) :
    (m.writeBytes a bs).readBytes a bs.length = some bs := by
  obtain ⟨cs, hcs⟩ := readBytes_isSome (m := m.writeBytes a bs) (a := a) (n := bs.length) fun k hk => by
    rw [readByte_writeBytes, if_pos (by omega)]
    simp [hk]
  obtain ⟨hl, hk⟩ := readBytes_eq_some hcs
  rw [hcs]
  congr 1
  refine List.ext_getElem? fun k => ?_
  by_cases hlt : k < bs.length
  · rw [← hk k hlt, readByte_writeBytes, if_pos (by omega)]
    simp
  · rw [List.getElem?_eq_none (by omega), List.getElem?_eq_none (by omega)]

end Sys2Proof.Machine
end

