-- ==== Sys2Proof/Laws/Sm3.lean ====
section
/-! SUPPORT. What the datapath's functions do: lengths, and how the block loops split. -/

namespace Sys2Proof.Machine

@[simp] theorem zeros_length (k : Nat) : (zeros k).length = k := List.length_replicate
@[simp] theorem xorAll_length (b : Byte) (s : List Byte) : (xorAll b s).length = s.length := List.length_map _
@[simp] theorem bytes32_length (w : Word) : (bytes32 w).length = 4 := rfl
@[simp] theorem bytes64_length (x : BitVec 64) : (bytes64 x).length = 8 := rfl

/-- The byte order of a 64-bit number (R12): byte k is bits 63-8k..56-8k. -/
theorem bytes64_getElem? (x : BitVec 64) {k : Nat} (h : k < 8) :
    (bytes64 x)[k]? = some (x.extractLsb' (56 - 8 * k) 8) := by
  obtain rfl | rfl | rfl | rfl | rfl | rfl | rfl | rfl :
    k = 0 ∨ k = 1 ∨ k = 2 ∨ k = 3 ∨ k = 4 ∨ k = 5 ∨ k = 6 ∨ k = 7 := by omega
  all_goals rfl

/-- XOR is bytewise (R11). -/
theorem xorAll_getElem? (b : Byte) (s : List Byte) (i : Nat) : (xorAll b s)[i]? = s[i]?.map (· ^^^ b) := by
  simp [xorAll]

@[simp] theorem chainBytes_length (v : Chain) : (chainBytes v).length = 32 := rfl
@[simp] theorem digest_length (h : HashState) : h.digest.length = 32 := by unfold HashState.digest; rfl
@[simp] theorem sm3_length (m : List Byte) : (sm3 m).length = 32 := digest_length _
@[simp] theorem outerMac_length (kb inner : List Byte) : (outerMac kb inner).length = 32 := digest_length _
@[simp] theorem hmacSm3_length (k m : List Byte) : (hmacSm3 k m).length = 32 := sm3_length _

/-- The key block has 64 bytes (R201). -/
@[simp] theorem keyBlock_length (k : List Byte) : (keyBlock k).length = 64 := by
  unfold keyBlock
  split
  · simp; omega
  · simp

/-- What the expander's loop adds to a schedule (R131): it keeps the words there are, and every further word is the recurrence's
from the words before it. -/
theorem expandMore_spec (n : Nat) (w : List Word) : (expandMore n w).length = w.length + n ∧
   (∀ j, j < w.length → (expandMore n w).getD j 0 = w.getD j 0) ∧
   (16 ≤ w.length → ∀ j, w.length ≤ j → j < w.length + n → (expandMore n w).getD j 0 = nextWord ((expandMore n w).take j)) := by
  induction n generalizing w with
  | zero =>
    simp only [expandMore, Nat.add_zero, implies_true, true_and]
    intro _ j h1 h2
    omega
  | succ n ih =>
    obtain ⟨a, b, c⟩ := ih (w ++ [nextWord w])
    simp only [List.length_append, List.length_singleton] at a b c
    refine ⟨by rw [expandMore, a]; omega, ?_, ?_⟩
    · intro j hj
      rw [expandMore, b j (by omega), List.getD_append _ _ _ _ hj]
    · intro h16 j h1 h2
      rw [expandMore]
      by_cases hj : j = w.length
      · subst hj
        rw [b _ (by omega), List.getD_append_right _ _ _ _ (le_refl _)]
        have : (expandMore n (w ++ [nextWord w])).take w.length = w := by
          apply List.ext_getElem?
          intro k
          by_cases hk : k < w.length
          · have := b k (by omega)
            rw [List.getElem?_take_of_lt hk]
            rw [List.getElem?_eq_getElem (by omega), List.getElem?_eq_getElem hk]
            rw [List.getD_append _ _ _ _ hk, List.getD_eq_getElem _ _ (by omega), List.getD_eq_getElem _ _ hk] at this
            rw [this]
          · rw [List.getElem?_eq_none (by simp; omega), List.getElem?_eq_none (by omega)]
        rw [this]; simp
      · exact c (by omega) j (by omega) (by omega)

/-- One round more is the next round of the result (R134). -/
theorem sm3Rounds_succ (w : List Word) (n j : Nat) (r : Chain) :
    sm3Rounds w r j (n + 1) = sm3Round w (j + n) (sm3Rounds w r j n) := by
  induction n generalizing r j with
  | zero => rfl
  | succ n ih => rw [sm3Rounds, ih, show j + 1 + n = j + (n + 1) by omega]; rfl

/-- `n + k` blocks are `n` blocks and then `k` blocks of what follows them (R137). -/
theorem compressBlocks_add (n k : Nat) (s : List Byte) (v : Chain) :
    compressBlocks v s (n + k) = compressBlocks (compressBlocks v s n) (s.drop (64 * n)) k := by
  induction n generalizing s v with
  | zero => simp [compressBlocks]
  | succ n ih =>
    rw [show n + 1 + k = (n + k) + 1 by omega, compressBlocks, ih, compressBlocks, List.drop_drop,
      show 64 + 64 * n = 64 * (n + 1) by omega]

/-- Bytes behind the compressed blocks play no part (R137). -/
theorem compressBlocks_append {n : Nat} {s : List Byte} (t : List Byte) (v : Chain) (h : 64 * n ≤ s.length) :
    compressBlocks v (s ++ t) n = compressBlocks v s n := by
  induction n generalizing s v with
  | zero => rfl
  | succ n ih =>
    rw [compressBlocks, compressBlocks, List.take_append_of_le_length (by omega),
      List.drop_append_of_le_length (by omega)]
    exact ih _ (by simp; omega)

/-- The chaining value of the absorb loop is that of the blocks compressed in order (R140). -/
theorem absorbBlocks_v (n : Nat) (s : List Byte) (h : HashState) :
    (absorbBlocks h s n).v = compressBlocks h.v s n := by
  induction n generalizing s h with
  | zero => rfl
  | succ n ih => rw [absorbBlocks, ih, compressBlocks]

/-- Each block of the absorb loop counts one, modulo 2^64 (R34, R140). -/
theorem absorbBlocks_nblk (n : Nat) (s : List Byte) (h : HashState) :
    (absorbBlocks h s n).nblk = h.nblk + BitVec.ofNat 64 n := by
  induction n generalizing s h with
  | zero => simp [absorbBlocks]
  | succ n ih =>
    rw [absorbBlocks, ih, show n + 1 = 1 + n by omega, BitVec.ofNat_add, ← BitVec.add_assoc]
    rfl

/-- What ABSORB leaves in the pending buffer (R140). -/
theorem absorb_buf (data : List Byte) (h : HashState) :
    (h.absorb data).buf = (h.buf ++ data).drop (64 * ((h.buf ++ data).length / 64)) := rfl

/-- ABSORB leaves fewer than 64 bytes pending (R35, R140). -/
theorem absorb_buf_lt (data : List Byte) (h : HashState) : (h.absorb data).buf.length < 64 := by
  rw [absorb_buf, List.length_drop]; omega

/-- Everything ABSORB does (R140), in one value. -/
theorem absorb_eq (h : HashState) (data : List Byte) :
    h.absorb data =
      { v := compressBlocks h.v (h.buf ++ data) ((h.buf ++ data).length / 64),
        nblk := h.nblk + BitVec.ofNat 64 ((h.buf ++ data).length / 64),
        buf := (h.buf ++ data).drop (64 * ((h.buf ++ data).length / 64)) } := by
  unfold HashState.absorb
  rw [← absorbBlocks_v, ← absorbBlocks_nblk]

/-- Absorbing `a` and then `b` is absorbing both at once, whatever is pending (R140). -/
theorem absorb_absorb (h : HashState) (a b : List Byte) : (h.absorb a).absorb b = h.absorb (a ++ b) := by
  have hv : (h.absorb a).v = compressBlocks h.v (h.buf ++ a) ((h.buf ++ a).length / 64) := by rw [absorb_eq h a]
  have hn : (h.absorb a).nblk = h.nblk + BitVec.ofNat 64 ((h.buf ++ a).length / 64) := by rw [absorb_eq h a]
  rw [absorb_eq (h.absorb a), absorb_eq h (a ++ b), hv, hn, absorb_buf a h]
  generalize hs : h.buf ++ a = s
  rw [show h.buf ++ (a ++ b) = s ++ b by rw [← hs, List.append_assoc],
    ← List.drop_append_of_le_length (l₂ := b) (show 64 * (s.length / 64) ≤ s.length by omega)]
  have hlen : (s ++ b).length / 64 = s.length / 64 + (List.drop (64 * (s.length / 64)) (s ++ b)).length / 64 := by
    rw [List.length_drop, List.length_append]; omega
  generalize (List.drop (64 * (s.length / 64)) (s ++ b)).length / 64 = k at *
  rw [hlen]
  congr 1
  · rw [compressBlocks_add, compressBlocks_append _ _ (by omega)]
  · rw [BitVec.ofNat_add, BitVec.add_assoc]
  · rw [List.drop_drop, Nat.mul_add]

/-- What FINALIZE returns: the big-endian bytes of V after the padding (R143). -/
theorem digest_eq (h : HashState) : h.digest = chainBytes (compressN h.v h.pad) := by unfold HashState.digest; rfl

/-- FINALIZE leaves the buffer empty and the counter as it was (R143). -/
@[simp] theorem finalized_buf (h : HashState) : h.finalized.buf = [] := rfl
@[simp] theorem finalized_nblk (h : HashState) : h.finalized.nblk = h.nblk := rfl

/-- The outer hash of HMAC_FINISH is SM3 of the converted key block and the inner digest (R145, R209). -/
theorem outerMac_eq (kb inner : List Byte) : outerMac kb inner = sm3 (xorAll convPad kb ++ inner) := by
  unfold outerMac sm3; rw [absorb_absorb]

end Sys2Proof.Machine
end

