-- ==== Sys2Proof/Laws/Exec.lean ====
section
/-! SUPPORT. Said once: everything a command can do. It ends in an error, or reads an unwritten byte, or completes with
some bytes written at DST and a context of its own. -/

namespace Sys2Proof.Machine

theorem withBytes_some (bs : List Byte) (k : List Byte → Host.Outcome State Fault Refusal) :
    withBytes (some bs) k = k bs := rfl

/-- What an answer of `withBytes` rests on (R62). -/
theorem withBytes_cases (o : Option (List Byte)) (k : List Byte → Host.Outcome State Fault Refusal) :
    (o = none ∧ withBytes o k = .fault .readUnwritten) ∨ ∃ bs, o = some bs ∧ withBytes o k = k bs := by
  cases o with
  | none => exact .inl ⟨rfl, rfl⟩
  | some bs => exact .inr ⟨bs, rfl, rfl⟩

/-- A command that goes on with a range holding an unwritten byte stops (R62). -/
theorem withBytes_unwritten {s : State} {a n : Nat} (h : HoldsUnwritten s a n)
    (k : List Byte → Host.Outcome State Fault Refusal) : withBytes (s.mem.readBytes a n) k = .fault .readUnwritten := by
  obtain ⟨x, h1, h2, hx⟩ := h
  cases hb : s.mem.readBytes a n with
  | none => rfl
  | some bs =>
    have hk := (readBytes_eq_some hb).2 (x - a) (by omega)
    have hl := readBytes_length hb
    rw [show a + (x - a) = x by omega, hx, List.getElem?_eq_getElem (by omega)] at hk
    cases hk

/-- A completed command (R273): `bs`, `n` bytes, written at DST, the context `h`, `kb`, `p`, and the status of success. -/
def completed (n : Nat) (bs : List Byte) (h : HashState) (kb : List Byte) (p : Phase) (s : State) : State :=
  complete n { s with mem := dstWritten s bs, hash := h, kb := kb, ctx := p }

/-- The context a command leaves when it completes, by command (41_hash_commands.md, 42_hmac.md, 43_base64.md). -/
def ContextAfter (i : Instr) (s : State) (bs : List Byte) (h : HashState) (kb : List Byte) (p : Phase) : Prop :=
  match i with
  | .init => bs = [] ∧ h = HashState.fresh ∧ kb = zeros 64 ∧ p = .hashActive
  | .update =>
    s.ctx = .hashActive ∧ bs = [] ∧ (∃ d, srcBytes s = some d ∧ h = s.hash.absorb d) ∧ kb = s.kb ∧ p = s.ctx
  | .finish =>
    s.ctx = .hashActive ∧ bs = s.hash.digest ∧ h = s.hash.finalized ∧ kb = s.kb ∧ p = .hashDone
  | .digest =>
    ∃ m, srcBytes s = some m ∧ bs = sm3 m ∧ h = (HashState.fresh.absorb m).finalized ∧ kb = zeros 64 ∧ p = .hashDone
  | .compress =>
    s.ctx ≠ .hmacInner ∧ s.len.toNat % 64 = 0 ∧ bs = [] ∧
      (∃ d, srcBytes s = some d ∧ h = { s.hash with v := compressN s.hash.v d }) ∧ kb = s.kb ∧ p = s.ctx
  | .hmacInit =>
    ∃ k, keyBytes s = some k ∧ bs = [] ∧ kb = xorAll ipad (keyBlock k) ∧ h = innerStart kb ∧ p = .hmacInner
  | .hmacUpdate =>
    s.ctx = .hmacInner ∧ bs = [] ∧ (∃ d, srcBytes s = some d ∧ h = s.hash.absorb d) ∧ kb = s.kb ∧ p = s.ctx
  | .hmacFinish =>
    s.ctx = .hmacInner ∧ bs = outerMac s.kb s.hash.digest ∧ h = HashState.zero ∧ kb = zeros 64 ∧ p = .hmacDone
  | .hmac =>
    ∃ k m, keyBytes s = some k ∧ srcBytes s = some m ∧
      bs = outerMac (xorAll ipad (keyBlock k)) ((innerStart (xorAll ipad (keyBlock k))).absorb m).digest ∧
      h = HashState.zero ∧ kb = zeros 64 ∧ p = .hmacDone
  | .b64Enc alph =>
    (∃ d, srcBytes s = some d ∧ bs = b64Encode alph d) ∧ srcDstOverlap s bs.length = false ∧
      h = s.hash ∧ kb = s.kb ∧ p = s.ctx
  | .b64Dec alph =>
    (∃ t, srcBytes s = some t ∧ b64Decode alph t = .ok bs) ∧ srcDstOverlap s bs.length = false ∧
      h = s.hash ∧ kb = s.kb ∧ p = s.ctx

/-- Everything a command can do: an error (R274), the fault READ_UNWRITTEN (R62) by a range of its own (R95), or completion (R273). -/
theorem exec_cases (i : Instr) (s : State) :
    (∃ e, exec i s = .next (raiseError e s)) ∨
    (exec i s = .fault .readUnwritten ∧ ∃ r, r ∈ rangesRead i s ∧ s.mem.readBytes r.1 r.2 = none) ∨
    (∃ n bs h kb p, exec i s = .next (completed n bs h kb p s) ∧ bs.length = n ∧ dstValid s n = true ∧
      ContextAfter i s bs h kb p) := by
  have nil : ∀ s : State, dstValid s 0 = true := fun s => by simp [dstValid, validRange]
  cases i with
  | init => exact .inr (.inr ⟨0, [], _, _, _, rfl, rfl, nil s, rfl, rfl, rfl, rfl⟩)
  | update =>
    simp only [exec, execUpdate]
    split
    · exact .inl ⟨_, rfl⟩
    · split
      · exact .inl ⟨_, rfl⟩
      · rename_i hc _
        rcases withBytes_cases (srcBytes s) _ with ⟨hn, hk⟩ | ⟨d, hd, hk⟩
        · exact .inr (.inl ⟨hk, _, List.mem_singleton_self _, hn⟩)
        · exact .inr (.inr ⟨0, [], _, s.kb, s.ctx, hk, rfl, nil s, not_not.mp hc, rfl, ⟨d, hd, rfl⟩, rfl, rfl⟩)
  | finish =>
    simp only [exec, execFinish]
    split
    · exact .inl ⟨_, rfl⟩
    · split
      · exact .inl ⟨_, rfl⟩
      · rename_i hc hv
        exact .inr (.inr ⟨32, s.hash.digest, s.hash.finalized, s.kb, .hashDone, rfl, digest_length _, by simpa using hv, not_not.mp hc, rfl, rfl, rfl, rfl⟩)
  | digest =>
    simp only [exec, execDigest]
    split
    · exact .inl ⟨_, rfl⟩
    · split
      · exact .inl ⟨_, rfl⟩
      · rename_i hv
        rcases withBytes_cases (srcBytes s) _ with ⟨hn, hk⟩ | ⟨m, hm, hk⟩
        · exact .inr (.inl ⟨hk, _, List.mem_singleton_self _, hn⟩)
        · exact .inr (.inr ⟨32, sm3 m, _, _, _, hk, sm3_length _, by simpa using hv, m, hm, rfl, rfl, rfl, rfl⟩)
  | compress =>
    simp only [exec, execCompress]
    split
    · exact .inl ⟨_, rfl⟩
    · split
      · exact .inl ⟨_, rfl⟩
      · split
        · exact .inl ⟨_, rfl⟩
        · rename_i hc hl _
          rcases withBytes_cases (srcBytes s) _ with ⟨hn, hk⟩ | ⟨d, hd, hk⟩
          · exact .inr (.inl ⟨hk, _, List.mem_singleton_self _, hn⟩)
          · exact .inr (.inr ⟨0, [], _, s.kb, s.ctx, hk, rfl, nil s, hc, not_not.mp hl, rfl, ⟨d, hd, rfl⟩, rfl, rfl⟩)
  | hmacInit =>
    simp only [exec, execHmacInit]
    split
    · exact .inl ⟨_, rfl⟩
    · rcases withBytes_cases (keyBytes s) _ with ⟨hn, hk⟩ | ⟨k, hkey, hk⟩
      · exact .inr (.inl ⟨hk, _, List.mem_cons_self, hn⟩)
      · exact .inr (.inr ⟨0, [], _, _, _, hk, rfl, nil s, k, hkey, rfl, rfl, rfl, rfl⟩)
  | hmacUpdate =>
    simp only [exec, execHmacUpdate]
    split
    · exact .inl ⟨_, rfl⟩
    · split
      · exact .inl ⟨_, rfl⟩
      · rename_i hc _
        rcases withBytes_cases (srcBytes s) _ with ⟨hn, hk⟩ | ⟨d, hd, hk⟩
        · exact .inr (.inl ⟨hk, _, List.mem_singleton_self _, hn⟩)
        · exact .inr (.inr ⟨0, [], _, s.kb, s.ctx, hk, rfl, nil s, not_not.mp hc, rfl, ⟨d, hd, rfl⟩, rfl, rfl⟩)
  | hmacFinish =>
    simp only [exec, execHmacFinish]
    split
    · exact .inl ⟨_, rfl⟩
    · split
      · exact .inl ⟨_, rfl⟩
      · rename_i hc hv
        exact .inr (.inr ⟨32, outerMac s.kb s.hash.digest, HashState.zero, zeros 64, .hmacDone, rfl, outerMac_length _ _, by simpa using hv, not_not.mp hc, rfl, rfl, rfl,
          rfl⟩)
  | hmac =>
    simp only [exec, execHmac]
    split
    · exact .inl ⟨_, rfl⟩
    · split
      · exact .inl ⟨_, rfl⟩
      · split
        · exact .inl ⟨_, rfl⟩
        · rename_i hv
          rcases withBytes_cases (keyBytes s) _ with ⟨hn, hk⟩ | ⟨k, hkey, hk⟩
          · exact .inr (.inl ⟨hk, _, List.mem_cons_self, hn⟩)
          · rw [hk]
            rcases withBytes_cases (srcBytes s) _ with ⟨hn, hk⟩ | ⟨m, hm, hk⟩
            · exact .inr (.inl ⟨hk, _, List.mem_cons_of_mem _ (List.mem_singleton_self _), hn⟩)
            · exact .inr (.inr ⟨32, outerMac (xorAll ipad (keyBlock k))
                ((innerStart (xorAll ipad (keyBlock k))).absorb m).digest, HashState.zero, zeros 64, .hmacDone, hk, outerMac_length _ _,
                by simpa using hv,
                k, m, hkey, hm, rfl, rfl, rfl, rfl⟩)
  | b64Enc alph =>
    simp only [exec, execB64Enc]
    split
    · exact .inl ⟨_, rfl⟩
    · rcases withBytes_cases (srcBytes s) _ with ⟨hn, hk⟩ | ⟨d, hd, hk⟩
      · exact .inr (.inl ⟨hk, _, List.mem_singleton_self _, hn⟩)
      · rw [hk]
        split
        · exact .inl ⟨_, rfl⟩
        · split
          · exact .inl ⟨_, rfl⟩
          · rename_i hv ho
            exact .inr (.inr ⟨_, b64Encode alph d, s.hash, s.kb, s.ctx, rfl, rfl, by simpa using hv, ⟨d, hd, rfl⟩,
              by simpa using ho, rfl, rfl, rfl⟩)
  | b64Dec alph =>
    simp only [exec, execB64Dec]
    split
    · exact .inl ⟨_, rfl⟩
    · rcases withBytes_cases (srcBytes s) _ with ⟨hn, hk⟩ | ⟨t, ht, hk⟩
      · exact .inr (.inl ⟨hk, _, List.mem_singleton_self _, hn⟩)
      · rw [hk]
        split
        · exact .inl ⟨_, rfl⟩
        · rename_i r hr
          split
          · exact .inl ⟨_, rfl⟩
          · split
            · exact .inl ⟨_, rfl⟩
            · rename_i hv ho
              exact .inr (.inr ⟨_, r, s.hash, s.kb, s.ctx, rfl, rfl, by simpa using hv, ⟨t, ht, hr⟩,
                by simpa using ho, rfl, rfl, rfl⟩)

/-- A command that gives a next state raised an error or completed. -/
theorem exec_next {i : Instr} {s t : State} (h : exec i s = .next t) :
    (∃ e, t = raiseError e s) ∨
    (∃ n bs hs kb p, t = completed n bs hs kb p s ∧ bs.length = n ∧ dstValid s n = true ∧ ContextAfter i s bs hs kb p) := by
  rcases exec_cases i s with ⟨e, he⟩ | ⟨hf, _⟩ | ⟨n, bs, hs, kb, p, he, hn, hv, hc⟩
  · rw [he] at h; cases h; exact .inl ⟨e, rfl⟩
  · rw [hf] at h; cases h
  · rw [he] at h; cases h; exact .inr ⟨n, bs, hs, kb, p, rfl, hn, hv, hc⟩

end Sys2Proof.Machine
end

