-- ==== Sys2Proof/Laws/Host.lean ====
section
/-! SUPPORT. Said once: everything a host step can do, and the register window's own laws. -/

namespace Sys2Proof.Machine

/-- A register's offset is its own (R21). -/
theorem regAt_offsetOf (r : Reg) : regAt (offsetOf r) = some r := by
  cases r with
  | v i => revert i; decide
  | _ => rfl

/-- A register's offset is a multiple of 4 (R21). -/
theorem regAccessOk_offsetOf (r : Reg) : regAccessOk 32 (offsetOf r) = true := by
  cases r with
  | v i => revert i; decide
  | _ => rfl

/-- Writing one word of V leaves the others (R28). -/
theorem chainWord_setChainWord (c : Chain) (i j : Fin 8) (w : Word) :
    chainWord (setChainWord c i w) j = if j = i then w else chainWord c j := by
  fin_cases i <;> fin_cases j <;> rfl

/-- Faults put into the record change nothing else (R43). -/
theorem recordFaults_eq (fs : List Fault) (s : State) : ∃ g, recordFaults fs s = { s with faults := g } := by
  induction fs generalizing s with
  | nil => exact ⟨_, rfl⟩
  | cons f fs ih => exact ih (recordFault f s)

/-- Everything a register write can do (R22, R25, R26, R28, R31): nothing, a dropped write, WDROP cleared, an operand
register, V outside HMAC_INNER, or a command accepted. -/
theorem writeRegister_cases (r : Reg) (w : Word) (s : State) :
    writeRegister r w s = s ∨ writeRegister r w s = dropWrite s ∨ writeRegister r w s = { s with wdrop := false } ∨
    (∃ src len dst kadr klen, s.busy = false ∧
      writeRegister r w s = { s with src := src, len := len, dst := dst, kadr := kadr, klen := klen }) ∨
    (∃ v, s.ctx ≠ .hmacInner ∧ s.busy = false ∧ writeRegister r w s = { s with hash := { s.hash with v := v } }) ∨
    (s.busy = false ∧ writeRegister r w s = { s with cmdl := w, busy := true }) := by
  have u : ∀ s', (s.busy = false ∧ unlessBusy s s' = s') ∨ unlessBusy s s' = dropWrite s := fun s' => by
    unfold unlessBusy
    cases s.busy
    · exact .inl ⟨rfl, rfl⟩
    · exact .inr rfl
  have op : ∀ src len dst kadr klen, writeRegister r w s =
      unlessBusy s { s with src := src, len := len, dst := dst, kadr := kadr, klen := klen } →
      writeRegister r w s = dropWrite s ∨
      ∃ src len dst kadr klen, s.busy = false ∧
        writeRegister r w s = { s with src := src, len := len, dst := dst, kadr := kadr, klen := klen } :=
    fun src len dst kadr klen h => by
      rcases u { s with src := src, len := len, dst := dst, kadr := kadr, klen := klen } with ⟨hb, h'⟩ | h'
      · exact .inr ⟨src, len, dst, kadr, klen, hb, h.trans h'⟩
      · exact .inl (h.trans h')
  cases r with
  | cmd =>
    rcases u { s with cmdl := w, busy := true } with h | h
    · exact .inr (.inr (.inr (.inr (.inr h))))
    · exact .inr (.inl h)
  | status =>
    simp only [writeRegister]
    split
    · exact .inr (.inr (.inl rfl))
    · exact .inl rfl
  | src => rcases op w s.len s.dst s.kadr s.klen rfl with h | h; exacts [.inr (.inl h), .inr (.inr (.inr (.inl h)))]
  | len => rcases op s.src w s.dst s.kadr s.klen rfl with h | h; exacts [.inr (.inl h), .inr (.inr (.inr (.inl h)))]
  | dst => rcases op s.src s.len w s.kadr s.klen rfl with h | h; exacts [.inr (.inl h), .inr (.inr (.inr (.inl h)))]
  | kadr => rcases op s.src s.len s.dst w s.klen rfl with h | h; exacts [.inr (.inl h), .inr (.inr (.inr (.inl h)))]
  | klen => rcases op s.src s.len s.dst s.kadr w rfl with h | h; exacts [.inr (.inl h), .inr (.inr (.inr (.inl h)))]
  | v i =>
    simp only [writeRegister]
    split
    · exact .inr (.inl rfl)
    · rename_i hc
      rcases u { s with hash := { s.hash with v := setChainWord s.hash.v i w } } with ⟨hb, h⟩ | h
      · exact .inr (.inr (.inr (.inr (.inl ⟨_, hc, hb, h⟩))))
      · exact .inr (.inl h)
  | outlen => exact .inl rfl
  | nblkLo => exact .inl rfl
  | nblkHi => exact .inl rfl
  | blen => exact .inl rfl

/-- Everything a host step can do when it answers: a read leaves its value, POLL stays or goes, a register or a DMEM byte
is written, or faults are recorded. -/
theorem hostAccess_next {h : HostStep} {s t : State} (hx : hostAccess h s = .next t) :
    (∃ r host, t = { s with rdata := r, host := host }) ∨
    (∃ r w, t = writeRegister r w s) ∨
    (∃ a b, a < s.cfg.dmemSize ∧ s.busy = false ∧ t = { s with mem := s.mem.writeByte a b }) ∨
    (∃ fs, t = { s with faults := fs }) := by
  cases h with
  | readReg width off =>
    simp only [hostAccess] at hx
    split at hx <;> cases hx
    exact .inl ⟨_, _, rfl⟩
  | writeReg width off w =>
    simp only [hostAccess] at hx
    split at hx <;> cases hx
    unfold writeOffset
    split
    · exact .inr (.inl ⟨_, _, rfl⟩)
    · exact .inl ⟨_, _, rfl⟩
  | readMem a =>
    simp only [hostAccess, hostReadMem] at hx
    split at hx
    · cases hx
    · split at hx <;> cases hx
      · exact .inl ⟨_, _, rfl⟩
      · exact .inr (.inr (.inr (recordFaults_eq _ s)))
  | writeMem a b =>
    simp only [hostAccess, hostWriteMem] at hx
    split at hx
    · cases hx
    · rename_i ha
      split at hx <;> cases hx
      · rename_i hf
        refine .inr (.inr (.inl ⟨a, b, Nat.not_le.mp ha, ?_, rfl⟩))
        cases hb : s.busy
        · rfl
        · simp [accessFaults, hb] at hf
      · exact .inr (.inr (.inr (recordFaults_eq _ s)))
  | poll =>
    simp only [hostAccess] at hx
    cases hx
    exact .inl ⟨_, _, rfl⟩

end Sys2Proof.Machine
end

