-- ==== Sys2Proof/Laws/Operands.lean ====
section
/-! SUPPORT. What the range and overlap checks say, as propositions (R64, R260). -/

namespace Sys2Proof.Machine

theorem validRange_true (c : Config) (a n : Nat) : validRange c a n = true ↔ (n = 0 ∨ a + n ≤ c.dmemSize) := by
  simp [validRange]

theorem validRange_false (c : Config) (a n : Nat) : validRange c a n = false ↔ ¬(n = 0 ∨ a + n ≤ c.dmemSize) := by
  rw [← validRange_true, Bool.not_eq_true]

theorem overlaps_true (a n d m : Nat) : overlaps a n d m = true ↔ (n > 0 ∧ m > 0 ∧ a < d + m ∧ d < a + n) := by
  simp [overlaps]

theorem overlaps_false (a n d m : Nat) : overlaps a n d m = false ↔ ¬(n > 0 ∧ m > 0 ∧ a < d + m ∧ d < a + n) := by
  rw [← overlaps_true, Bool.not_eq_true]

/-- Two ranges overlap exactly when they share a byte (R260). -/
theorem overlaps_iff_share (a n d m : Nat) :
    overlaps a n d m = true ↔ ∃ x, (a ≤ x ∧ x < a + n) ∧ d ≤ x ∧ x < d + m := by
  rw [overlaps_true]
  constructor
  · intro h
    exact ⟨max a d, by omega, by omega⟩
  · rintro ⟨x, h1, h2⟩
    omega

/-- DMEM after `MemWrite(DST, |bs|, bs)` keeps its canonical form (R63). -/
theorem dstWritten_wf {s : State} (bs : List Byte) (h : s.mem.wf) : (dstWritten s bs).wf := writeBytes_wf _ _ h

end Sys2Proof.Machine
end

