-- ==== Sys2Proof/Laws/PerInstr.lean ====
section
/-! SUPPORT. The per-instruction family RoundTrip: a command's fields are well-formed and its word decodes back to it. -/

namespace Sys2Proof.Laws

/-- The command's word has well-formed fields and decodes to the command (R94, R96). -/
def RoundTrip.Statement (i : Instr) : Prop := (fieldsOf (encode i)).wf = true ∧ decode (encode i) = .ok i

theorem RoundTrip.init : RoundTrip.Statement .init := ⟨rfl, rfl⟩
theorem RoundTrip.update : RoundTrip.Statement .update := ⟨rfl, rfl⟩
theorem RoundTrip.finish : RoundTrip.Statement .finish := ⟨rfl, rfl⟩
theorem RoundTrip.digest : RoundTrip.Statement .digest := ⟨rfl, rfl⟩
theorem RoundTrip.compress : RoundTrip.Statement .compress := ⟨rfl, rfl⟩
theorem RoundTrip.hmacInit : RoundTrip.Statement .hmacInit := ⟨rfl, rfl⟩
theorem RoundTrip.hmacUpdate : RoundTrip.Statement .hmacUpdate := ⟨rfl, rfl⟩
theorem RoundTrip.hmacFinish : RoundTrip.Statement .hmacFinish := ⟨rfl, rfl⟩
theorem RoundTrip.hmac : RoundTrip.Statement .hmac := ⟨rfl, rfl⟩
theorem RoundTrip.b64Enc (alph : Alphabet) : RoundTrip.Statement (.b64Enc alph) := by cases alph <;> exact ⟨rfl, rfl⟩
theorem RoundTrip.b64Dec (alph : Alphabet) : RoundTrip.Statement (.b64Dec alph) := by cases alph <;> exact ⟨rfl, rfl⟩

end Sys2Proof.Laws
end

