-- ==== Sys2Proof/Laws/State.lean ====
section
/-! SUPPORT. One lemma per field per update of State, true by rfl, so that no later proof unfolds a record update. -/

namespace Sys2Proof.Machine

@[simp] theorem complete_cmdl (n : Nat) (s : State) : (complete n s).cmdl = s.cmdl := rfl
@[simp] theorem complete_busy (n : Nat) (s : State) : (complete n s).busy = false := rfl
@[simp] theorem complete_err (n : Nat) (s : State) : (complete n s).err = false := rfl
@[simp] theorem complete_ecode (n : Nat) (s : State) : (complete n s).ecode = 0 := rfl
@[simp] theorem complete_ctx (n : Nat) (s : State) : (complete n s).ctx = s.ctx := rfl
@[simp] theorem complete_wdrop (n : Nat) (s : State) : (complete n s).wdrop = s.wdrop := rfl
@[simp] theorem complete_src (n : Nat) (s : State) : (complete n s).src = s.src := rfl
@[simp] theorem complete_len (n : Nat) (s : State) : (complete n s).len = s.len := rfl
@[simp] theorem complete_dst (n : Nat) (s : State) : (complete n s).dst = s.dst := rfl
@[simp] theorem complete_kadr (n : Nat) (s : State) : (complete n s).kadr = s.kadr := rfl
@[simp] theorem complete_klen (n : Nat) (s : State) : (complete n s).klen = s.klen := rfl
@[simp] theorem complete_outlen (n : Nat) (s : State) : (complete n s).outlen = BitVec.ofNat 32 n := rfl
@[simp] theorem complete_hash (n : Nat) (s : State) : (complete n s).hash = s.hash := rfl
@[simp] theorem complete_kb (n : Nat) (s : State) : (complete n s).kb = s.kb := rfl
@[simp] theorem complete_mem (n : Nat) (s : State) : (complete n s).mem = s.mem := rfl
@[simp] theorem complete_faults (n : Nat) (s : State) : (complete n s).faults = s.faults := rfl
@[simp] theorem complete_cfg (n : Nat) (s : State) : (complete n s).cfg = s.cfg := rfl
@[simp] theorem complete_host (n : Nat) (s : State) : (complete n s).host = s.host := rfl
@[simp] theorem complete_sched (n : Nat) (s : State) : (complete n s).sched = s.sched := rfl
@[simp] theorem complete_rdata (n : Nat) (s : State) : (complete n s).rdata = s.rdata := rfl

@[simp] theorem raiseError_cmdl (e : ErrorCode) (s : State) : (raiseError e s).cmdl = s.cmdl := rfl
@[simp] theorem raiseError_busy (e : ErrorCode) (s : State) : (raiseError e s).busy = false := rfl
@[simp] theorem raiseError_err (e : ErrorCode) (s : State) : (raiseError e s).err = true := rfl
@[simp] theorem raiseError_ecode (e : ErrorCode) (s : State) : (raiseError e s).ecode = e.code := rfl
@[simp] theorem raiseError_ctx (e : ErrorCode) (s : State) : (raiseError e s).ctx = s.ctx := rfl
@[simp] theorem raiseError_wdrop (e : ErrorCode) (s : State) : (raiseError e s).wdrop = s.wdrop := rfl
@[simp] theorem raiseError_src (e : ErrorCode) (s : State) : (raiseError e s).src = s.src := rfl
@[simp] theorem raiseError_len (e : ErrorCode) (s : State) : (raiseError e s).len = s.len := rfl
@[simp] theorem raiseError_dst (e : ErrorCode) (s : State) : (raiseError e s).dst = s.dst := rfl
@[simp] theorem raiseError_kadr (e : ErrorCode) (s : State) : (raiseError e s).kadr = s.kadr := rfl
@[simp] theorem raiseError_klen (e : ErrorCode) (s : State) : (raiseError e s).klen = s.klen := rfl
@[simp] theorem raiseError_outlen (e : ErrorCode) (s : State) : (raiseError e s).outlen = 0 := rfl
@[simp] theorem raiseError_hash (e : ErrorCode) (s : State) : (raiseError e s).hash = s.hash := rfl
@[simp] theorem raiseError_kb (e : ErrorCode) (s : State) : (raiseError e s).kb = s.kb := rfl
@[simp] theorem raiseError_mem (e : ErrorCode) (s : State) : (raiseError e s).mem = s.mem := rfl
@[simp] theorem raiseError_faults (e : ErrorCode) (s : State) : (raiseError e s).faults = s.faults := rfl
@[simp] theorem raiseError_cfg (e : ErrorCode) (s : State) : (raiseError e s).cfg = s.cfg := rfl
@[simp] theorem raiseError_host (e : ErrorCode) (s : State) : (raiseError e s).host = s.host := rfl
@[simp] theorem raiseError_sched (e : ErrorCode) (s : State) : (raiseError e s).sched = s.sched := rfl
@[simp] theorem raiseError_rdata (e : ErrorCode) (s : State) : (raiseError e s).rdata = s.rdata := rfl

@[simp] theorem recordFault_cmdl (f : Fault) (s : State) : (recordFault f s).cmdl = s.cmdl := rfl
@[simp] theorem recordFault_busy (f : Fault) (s : State) : (recordFault f s).busy = s.busy := rfl
@[simp] theorem recordFault_err (f : Fault) (s : State) : (recordFault f s).err = s.err := rfl
@[simp] theorem recordFault_ecode (f : Fault) (s : State) : (recordFault f s).ecode = s.ecode := rfl
@[simp] theorem recordFault_ctx (f : Fault) (s : State) : (recordFault f s).ctx = s.ctx := rfl
@[simp] theorem recordFault_wdrop (f : Fault) (s : State) : (recordFault f s).wdrop = s.wdrop := rfl
@[simp] theorem recordFault_src (f : Fault) (s : State) : (recordFault f s).src = s.src := rfl
@[simp] theorem recordFault_len (f : Fault) (s : State) : (recordFault f s).len = s.len := rfl
@[simp] theorem recordFault_dst (f : Fault) (s : State) : (recordFault f s).dst = s.dst := rfl
@[simp] theorem recordFault_kadr (f : Fault) (s : State) : (recordFault f s).kadr = s.kadr := rfl
@[simp] theorem recordFault_klen (f : Fault) (s : State) : (recordFault f s).klen = s.klen := rfl
@[simp] theorem recordFault_outlen (f : Fault) (s : State) : (recordFault f s).outlen = s.outlen := rfl
@[simp] theorem recordFault_hash (f : Fault) (s : State) : (recordFault f s).hash = s.hash := rfl
@[simp] theorem recordFault_kb (f : Fault) (s : State) : (recordFault f s).kb = s.kb := rfl
@[simp] theorem recordFault_mem (f : Fault) (s : State) : (recordFault f s).mem = s.mem := rfl
@[simp] theorem recordFault_faults (f : Fault) (s : State) : (recordFault f s).faults = if f ∈ s.faults then s.faults else s.faults ++ [f] := rfl
@[simp] theorem recordFault_cfg (f : Fault) (s : State) : (recordFault f s).cfg = s.cfg := rfl
@[simp] theorem recordFault_host (f : Fault) (s : State) : (recordFault f s).host = s.host := rfl
@[simp] theorem recordFault_sched (f : Fault) (s : State) : (recordFault f s).sched = s.sched := rfl
@[simp] theorem recordFault_rdata (f : Fault) (s : State) : (recordFault f s).rdata = s.rdata := rfl

@[simp] theorem zeroize_cmdl (s : State) : (zeroize s).cmdl = s.cmdl := rfl
@[simp] theorem zeroize_busy (s : State) : (zeroize s).busy = s.busy := rfl
@[simp] theorem zeroize_err (s : State) : (zeroize s).err = s.err := rfl
@[simp] theorem zeroize_ecode (s : State) : (zeroize s).ecode = s.ecode := rfl
@[simp] theorem zeroize_ctx (s : State) : (zeroize s).ctx = s.ctx := rfl
@[simp] theorem zeroize_wdrop (s : State) : (zeroize s).wdrop = s.wdrop := rfl
@[simp] theorem zeroize_src (s : State) : (zeroize s).src = s.src := rfl
@[simp] theorem zeroize_len (s : State) : (zeroize s).len = s.len := rfl
@[simp] theorem zeroize_dst (s : State) : (zeroize s).dst = s.dst := rfl
@[simp] theorem zeroize_kadr (s : State) : (zeroize s).kadr = s.kadr := rfl
@[simp] theorem zeroize_klen (s : State) : (zeroize s).klen = s.klen := rfl
@[simp] theorem zeroize_outlen (s : State) : (zeroize s).outlen = s.outlen := rfl
@[simp] theorem zeroize_hash (s : State) : (zeroize s).hash = HashState.zero := rfl
@[simp] theorem zeroize_kb (s : State) : (zeroize s).kb = zeros 64 := rfl
@[simp] theorem zeroize_mem (s : State) : (zeroize s).mem = s.mem := rfl
@[simp] theorem zeroize_faults (s : State) : (zeroize s).faults = s.faults := rfl
@[simp] theorem zeroize_cfg (s : State) : (zeroize s).cfg = s.cfg := rfl
@[simp] theorem zeroize_host (s : State) : (zeroize s).host = s.host := rfl
@[simp] theorem zeroize_sched (s : State) : (zeroize s).sched = s.sched := rfl
@[simp] theorem zeroize_rdata (s : State) : (zeroize s).rdata = s.rdata := rfl


@[simp] theorem dropWrite_cmdl (s : State) : (dropWrite s).cmdl = s.cmdl := rfl
@[simp] theorem dropWrite_busy (s : State) : (dropWrite s).busy = s.busy := rfl
@[simp] theorem dropWrite_err (s : State) : (dropWrite s).err = s.err := rfl
@[simp] theorem dropWrite_ecode (s : State) : (dropWrite s).ecode = s.ecode := rfl
@[simp] theorem dropWrite_ctx (s : State) : (dropWrite s).ctx = s.ctx := rfl
@[simp] theorem dropWrite_wdrop (s : State) : (dropWrite s).wdrop = true := rfl
@[simp] theorem dropWrite_src (s : State) : (dropWrite s).src = s.src := rfl
@[simp] theorem dropWrite_len (s : State) : (dropWrite s).len = s.len := rfl
@[simp] theorem dropWrite_dst (s : State) : (dropWrite s).dst = s.dst := rfl
@[simp] theorem dropWrite_kadr (s : State) : (dropWrite s).kadr = s.kadr := rfl
@[simp] theorem dropWrite_klen (s : State) : (dropWrite s).klen = s.klen := rfl
@[simp] theorem dropWrite_outlen (s : State) : (dropWrite s).outlen = s.outlen := rfl
@[simp] theorem dropWrite_hash (s : State) : (dropWrite s).hash = s.hash := rfl
@[simp] theorem dropWrite_kb (s : State) : (dropWrite s).kb = s.kb := rfl
@[simp] theorem dropWrite_mem (s : State) : (dropWrite s).mem = s.mem := rfl
@[simp] theorem dropWrite_faults (s : State) : (dropWrite s).faults = s.faults := rfl
@[simp] theorem dropWrite_cfg (s : State) : (dropWrite s).cfg = s.cfg := rfl
@[simp] theorem dropWrite_host (s : State) : (dropWrite s).host = s.host := rfl
@[simp] theorem dropWrite_sched (s : State) : (dropWrite s).sched = s.sched := rfl
@[simp] theorem dropWrite_rdata (s : State) : (dropWrite s).rdata = s.rdata := rfl

@[simp] theorem takeTurn_cmdl (s : State) : (takeTurn s).cmdl = s.cmdl := rfl
@[simp] theorem takeTurn_busy (s : State) : (takeTurn s).busy = s.busy := rfl
@[simp] theorem takeTurn_err (s : State) : (takeTurn s).err = s.err := rfl
@[simp] theorem takeTurn_ecode (s : State) : (takeTurn s).ecode = s.ecode := rfl
@[simp] theorem takeTurn_ctx (s : State) : (takeTurn s).ctx = s.ctx := rfl
@[simp] theorem takeTurn_wdrop (s : State) : (takeTurn s).wdrop = s.wdrop := rfl
@[simp] theorem takeTurn_src (s : State) : (takeTurn s).src = s.src := rfl
@[simp] theorem takeTurn_len (s : State) : (takeTurn s).len = s.len := rfl
@[simp] theorem takeTurn_dst (s : State) : (takeTurn s).dst = s.dst := rfl
@[simp] theorem takeTurn_kadr (s : State) : (takeTurn s).kadr = s.kadr := rfl
@[simp] theorem takeTurn_klen (s : State) : (takeTurn s).klen = s.klen := rfl
@[simp] theorem takeTurn_outlen (s : State) : (takeTurn s).outlen = s.outlen := rfl
@[simp] theorem takeTurn_hash (s : State) : (takeTurn s).hash = s.hash := rfl
@[simp] theorem takeTurn_kb (s : State) : (takeTurn s).kb = s.kb := rfl
@[simp] theorem takeTurn_mem (s : State) : (takeTurn s).mem = s.mem := rfl
@[simp] theorem takeTurn_faults (s : State) : (takeTurn s).faults = s.faults := rfl
@[simp] theorem takeTurn_cfg (s : State) : (takeTurn s).cfg = s.cfg := rfl
@[simp] theorem takeTurn_host (s : State) : (takeTurn s).host = s.host := rfl
@[simp] theorem takeTurn_sched (s : State) : (takeTurn s).sched = s.sched.tail := rfl
@[simp] theorem takeTurn_rdata (s : State) : (takeTurn s).rdata = s.rdata := rfl

@[simp] theorem latchCommand_cmdl (s : State) (c : Word) : (latchCommand s c).cmdl = c := rfl
@[simp] theorem latchCommand_busy (s : State) (c : Word) : (latchCommand s c).busy = true := rfl
@[simp] theorem latchCommand_err (s : State) (c : Word) : (latchCommand s c).err = s.err := rfl
@[simp] theorem latchCommand_ecode (s : State) (c : Word) : (latchCommand s c).ecode = s.ecode := rfl
@[simp] theorem latchCommand_ctx (s : State) (c : Word) : (latchCommand s c).ctx = s.ctx := rfl
@[simp] theorem latchCommand_wdrop (s : State) (c : Word) : (latchCommand s c).wdrop = s.wdrop := rfl
@[simp] theorem latchCommand_src (s : State) (c : Word) : (latchCommand s c).src = s.src := rfl
@[simp] theorem latchCommand_len (s : State) (c : Word) : (latchCommand s c).len = s.len := rfl
@[simp] theorem latchCommand_dst (s : State) (c : Word) : (latchCommand s c).dst = s.dst := rfl
@[simp] theorem latchCommand_kadr (s : State) (c : Word) : (latchCommand s c).kadr = s.kadr := rfl
@[simp] theorem latchCommand_klen (s : State) (c : Word) : (latchCommand s c).klen = s.klen := rfl
@[simp] theorem latchCommand_outlen (s : State) (c : Word) : (latchCommand s c).outlen = s.outlen := rfl
@[simp] theorem latchCommand_hash (s : State) (c : Word) : (latchCommand s c).hash = s.hash := rfl
@[simp] theorem latchCommand_kb (s : State) (c : Word) : (latchCommand s c).kb = s.kb := rfl
@[simp] theorem latchCommand_mem (s : State) (c : Word) : (latchCommand s c).mem = s.mem := rfl
@[simp] theorem latchCommand_faults (s : State) (c : Word) : (latchCommand s c).faults = s.faults := rfl
@[simp] theorem latchCommand_cfg (s : State) (c : Word) : (latchCommand s c).cfg = s.cfg := rfl
@[simp] theorem latchCommand_host (s : State) (c : Word) : (latchCommand s c).host = s.host := rfl
@[simp] theorem latchCommand_sched (s : State) (c : Word) : (latchCommand s c).sched = .engine :: s.sched := rfl
@[simp] theorem latchCommand_rdata (s : State) (c : Word) : (latchCommand s c).rdata = s.rdata := rfl

@[simp] theorem resetTurn_cmdl (s : State) : (resetTurn s).cmdl = 0 := rfl
@[simp] theorem resetTurn_busy (s : State) : (resetTurn s).busy = false := rfl
@[simp] theorem resetTurn_err (s : State) : (resetTurn s).err = false := rfl
@[simp] theorem resetTurn_ecode (s : State) : (resetTurn s).ecode = 0 := rfl
@[simp] theorem resetTurn_ctx (s : State) : (resetTurn s).ctx = .idle := rfl
@[simp] theorem resetTurn_wdrop (s : State) : (resetTurn s).wdrop = false := rfl
@[simp] theorem resetTurn_src (s : State) : (resetTurn s).src = 0 := rfl
@[simp] theorem resetTurn_len (s : State) : (resetTurn s).len = 0 := rfl
@[simp] theorem resetTurn_dst (s : State) : (resetTurn s).dst = 0 := rfl
@[simp] theorem resetTurn_kadr (s : State) : (resetTurn s).kadr = 0 := rfl
@[simp] theorem resetTurn_klen (s : State) : (resetTurn s).klen = 0 := rfl
@[simp] theorem resetTurn_outlen (s : State) : (resetTurn s).outlen = 0 := rfl
@[simp] theorem resetTurn_hash (s : State) : (resetTurn s).hash = HashState.zero := rfl
@[simp] theorem resetTurn_kb (s : State) : (resetTurn s).kb = List.replicate 64 0#8 := rfl
@[simp] theorem resetTurn_mem (s : State) : (resetTurn s).mem = memAfterReset s := rfl
@[simp] theorem resetTurn_faults (s : State) : (resetTurn s).faults = s.faults := rfl
@[simp] theorem resetTurn_cfg (s : State) : (resetTurn s).cfg = s.cfg := rfl
@[simp] theorem resetTurn_host (s : State) : (resetTurn s).host = s.host := rfl
@[simp] theorem resetTurn_sched (s : State) : (resetTurn s).sched = s.sched := rfl
@[simp] theorem resetTurn_rdata (s : State) : (resetTurn s).rdata = s.rdata := rfl

end Sys2Proof.Machine
end

