-- ==== Sys2Proof/Laws/Step.lean ====
section
/-! SUPPORT. Said once: everything one step can do, and that the reset input keeps the memory's form. -/

namespace Sys2Proof.Machine

/-- The memory at power-on has the canonical form (R44). -/
theorem reset_mem_wf : State.reset.mem.wf := List.Pairwise.nil

/-- The reset input keeps the canonical form (R301). -/
theorem memAfterReset_wf {s : State} (h : s.mem.wf) : (memAfterReset s).wf := by
  unfold memAfterReset
  split
  · exact unwrite_wf _ _ h
  · exact h

/-- The reset input lists no byte that was not listed (R301). -/
theorem mem_memAfterReset {s : State} {c : Host.Cell} (h : c ∈ memAfterReset s) : c ∈ s.mem := by
  unfold memAfterReset at h
  split at h
  · exact mem_unwrite h
  · exact h

/-- What a byte reads as after the reset input (R301). -/
theorem readByte_memAfterReset (s : State) (x : Nat) :
    (memAfterReset s).readByte x =
      if s.busy = true ∧ (pendingDestination s).1 ≤ x ∧ x < (pendingDestination s).1 + (pendingDestination s).2 then none
      else s.mem.readByte x := by
  unfold memAfterReset
  cases s.busy <;> simp [readByte_unwrite]

/-- Everything a step that answers can do, by who moves (R74): the host's next access, or none left; the pending command,
the illegal word, a fault recorded, or an idle engine; the reset input. -/
theorem step_next {s t : State} (h : step s = .next t) :
    s.faults = [] ∧
    ((nextTurn s = .host ∧
        ((s.host = [] ∧ t = takeTurn s) ∨
          ∃ a rest, s.host = a :: rest ∧ hostAccess a { takeTurn s with host := rest } = .next t)) ∨
      (nextTurn s = .engine ∧
        ((s.busy = false ∧ t = takeTurn s) ∨
          (∃ e, s.busy = true ∧ decode s.cmdl = .error e ∧ t = raiseError .illegal (takeTurn s)) ∨
          (∃ i, s.busy = true ∧ decode s.cmdl = .ok i ∧
            (exec i (takeTurn s) = .next t ∨
              ∃ f, exec i (takeTurn s) = .fault f ∧ t = recordFault f (takeTurn s))))) ∨
      (nextTurn s = .reset ∧ t = resetTurn (takeTurn s))) := by
  unfold step stepOnce at h
  split at h
  · cases h
  · rename_i hf
    refine ⟨hf, ?_⟩
    cases ht : nextTurn s <;> rw [ht] at h <;> simp only [runTurn] at h
    · refine .inl ⟨rfl, ?_⟩
      simp only [hostTurn, takeTurn_host] at h
      split at h
      · rename_i hh; cases h; exact .inl ⟨hh, rfl⟩
      · rename_i a rest hh; exact .inr ⟨a, rest, hh, h⟩
    · refine .inr (.inl ⟨rfl, ?_⟩)
      unfold engineTurn at h
      split at h
      · rename_i hb
        split at h
        · rename_i i hd
          refine .inr (.inr ⟨i, hb, hd, ?_⟩)
          cases hx : exec i (takeTurn s) <;> rw [hx] at h <;> cases h
          · exact .inl rfl
          · exact .inr ⟨_, rfl, rfl⟩
        · rename_i e hd
          cases h
          exact .inr (.inl ⟨e, hb, hd, rfl⟩)
      · rename_i hb
        cases h
        exact .inl ⟨by simpa using hb, rfl⟩
    · cases h; exact .inr (.inr ⟨rfl, rfl⟩)

end Sys2Proof.Machine
end

