-- ==== Sys2Proof/Tests/Slice0.lean ====
section
/-! SUPPORT. Tests on small states, their expected values from spec/95_test_vectors.md, and a witness for the hypotheses of each
statement. -/

namespace Sys2Proof.Tests

open Sys2Proof Sys2Proof.Machine

/-! ### Helpers -/

/-- The `n` bytes of a number, most significant first. -/
def bytesOf (n x : Nat) : List Byte := (List.range n).map fun i => BitVec.ofNat 8 (x >>> (8 * (n - 1 - i)))

/-- Whether an outcome is a next state with a property. -/
def nextIs (o : Host.Outcome State Fault Refusal) (p : State → Bool) : Bool :=
  match o with
  | .next s => p s
  | _ => false

/-- The state after a next step. -/
def after (o : Host.Outcome State Fault Refusal) : State :=
  match o with
  | .next s => s
  | _ => State.reset

/-- Reset, with bytes in DMEM. -/
def withData (a : Nat) (bs : List Byte) : State := { State.reset with mem := Memory.writeBytes [] a bs }

/-- A state in a phase, with source bytes at `src` and a destination. -/
def cmdState (p : Phase) (src : Nat) (bs : List Byte) (dst : Nat) : State :=
  { withData src bs with ctx := p, src := BitVec.ofNat 32 src, len := BitVec.ofNat 32 bs.length, dst := BitVec.ofNat 32 dst }

/-- A state with key bytes at `kadr` and a phase. -/
def keyState (p : Phase) (kadr : Nat) (bs : List Byte) : State :=
  { withData kadr bs with ctx := p, kadr := BitVec.ofNat 32 kadr, klen := BitVec.ofNat 32 bs.length }

/-- A live HMAC with pending bytes and a busy engine. -/
def liveHmac : State :=
  { State.reset with
    ctx := .hmacInner, kb := List.replicate 64 0x36#8,
    hash := { v := iv, nblk := 1, buf := [0x61#8] }, mem := [(5, 0x61#8), (0xFFFF, 0x62#8)],
    err := true, ecode := 2, cmdl := 0x7#32, busy := true, host := [.poll], sched := [.host] }

/-- "abc" (95_test_vectors.md section 2.1). -/
def abc : List Byte := bytesOf 3 0x616263

/-- SM3("abc") (95_test_vectors.md section 2.1). -/
def abcDigest : List Byte := bytesOf 32 0x66c7f0f462eeedd9d1f2d46bdc10e4e24167c4875cf2f7a2297da02b8f4ba8e0

/-- "lqlq666lqlq946" (95_test_vectors.md section 3, H1). -/
def h1Message : List Byte := bytesOf 14 0x6C716C713636366C716C71393436

/-- HMAC-SM3 of H1 under "123" (95_test_vectors.md section 3). -/
def h1Mac : List Byte := bytesOf 32 0xfbb67fc936777011aa70336f0f0b6305d529a97a87d8eca8880472cd2c30a721

/-! ### Well-formedness: a legal word's fields pass, one ill-formed word for each check -/

theorem test_wf_accepts : (fieldsOf 0x0000001A#32).wf = true ∧ (fieldsOf 0x00000009#32).wf = true := by decide
theorem test_wf_refuses_res : (fieldsOf 0x0000002A#32).resOk = false ∧ (fieldsOf 0x0000002A#32).wf = false := by decide
theorem test_wf_refuses_op :
    (fieldsOf 0x00000000#32).opOk = false ∧ (fieldsOf 0x0000000C#32).opOk = false ∧ (fieldsOf 0x0000000C#32).wf = false := by
  decide
theorem test_wf_refuses_alph : (fieldsOf 0x00000011#32).alphOk = false ∧ (fieldsOf 0x00000011#32).wf = false := by decide

/-! ### Decoding: every command's word written out from R94, RES ALPH OP -/
theorem test_decode_init : decode 0b000000000000000000000000000_0_0001#32 = .ok .init := by decide
theorem test_decode_update : decode 0b000000000000000000000000000_0_0010#32 = .ok .update := by decide
theorem test_decode_finish : decode 0b000000000000000000000000000_0_0011#32 = .ok .finish := by decide
theorem test_decode_digest : decode 0b000000000000000000000000000_0_0100#32 = .ok .digest := by decide
theorem test_decode_compress : decode 0b000000000000000000000000000_0_0101#32 = .ok .compress := by decide
theorem test_decode_hmacInit : decode 0b000000000000000000000000000_0_0110#32 = .ok .hmacInit := by decide
theorem test_decode_hmacUpdate : decode 0b000000000000000000000000000_0_0111#32 = .ok .hmacUpdate := by decide
theorem test_decode_hmacFinish : decode 0b000000000000000000000000000_0_1000#32 = .ok .hmacFinish := by decide
theorem test_decode_hmac : decode 0b000000000000000000000000000_0_1001#32 = .ok .hmac := by decide
theorem test_decode_b64EncStd : decode 0b000000000000000000000000000_0_1010#32 = .ok (.b64Enc .std) := by decide
theorem test_decode_b64EncUrl : decode 0b000000000000000000000000000_1_1010#32 = .ok (.b64Enc .url) := by decide
theorem test_decode_b64DecStd : decode 0b000000000000000000000000000_0_1011#32 = .ok (.b64Dec .std) := by decide
theorem test_decode_b64DecUrl : decode 0b000000000000000000000000000_1_1011#32 = .ok (.b64Dec .url) := by decide

/-- A block's words, from a number. -/
def wordsOf (n x : Nat) : List Word := (List.range n).map fun i => BitVec.ofNat 32 (x >>> (32 * (n - 1 - i)))

/-- PAD("abc") (95_test_vectors.md section 2.2). -/
def abcBlock : List Byte := bytesOf 64 (0x61626380 <<< 480 ||| 0x18)

/-- The round-constant ROM K[0..63] (95_test_vectors.md section 2.3). -/
theorem test_round_constants : (List.range 64).map kRom = wordsOf 64
    (0x79CC4519F3988A32E7311465CE6228CB9CC451973988A32F7311465EE6228CBCCC451979988A32F3311465E76228CBCEC451979C88A32F3911465E73228CBCE6 <<< 1536 |||
     0x9D8A7A873B14F50F7629EA1EEC53D43CD8A7A879B14F50F3629EA1E7C53D43CE8A7A879D14F50F3B29EA1E7653D43CECA7A879D84F50F3B19EA1E7623D43CEC5 <<< 1024 |||
     0x7A879D8AF50F3B14EA1E7629D43CEC53A879D8A750F3B14FA1E7629E43CEC53D879D8A7A0F3B14F51E7629EA3CEC53D479D8A7A8F3B14F50E7629EA1CEC53D43 <<< 512 |||
     0x9D8A7A873B14F50F7629EA1EEC53D43CD8A7A879B14F50F3629EA1E7C53D43CE8A7A879D14F50F3B29EA1E7653D43CECA7A879D84F50F3B19EA1E7623D43CEC5) := by decide +kernel

theorem test_pad_abc : ({ v := iv, nblk := 0, buf := abc } : HashState).pad = abcBlock := by decide

/-- W[16], W[31], W[48], W[67] (95_test_vectors.md section 2.3). -/
theorem test_schedule_abc :
    (schedule abcBlock).getD 16 0 = 0x9092E200#32 ∧ (schedule abcBlock).getD 31 0 = 0xB2D12F1B#32 ∧
      (schedule abcBlock).getD 48 0 = 0xA92DBCA1#32 ∧ (schedule abcBlock).getD 67 0 = 0xB99C0545#32 := by decide +kernel

/-- W'[15] and W'[63] (95_test_vectors.md section 2.3). -/
theorem test_schedule2_abc :
    schedule2 (schedule abcBlock) 15 = 0x719C70F5#32 ∧ schedule2 (schedule abcBlock) 63 = 0x49E260D5#32 := by decide +kernel

/-- The working registers after rounds 0 and 16 (95_test_vectors.md section 2.3). -/
theorem test_rounds_abc :
    sm3Rounds (schedule abcBlock) iv 0 1 = ⟨0xB9EDC12B, 0x7380166F, 0x29657292, 0x172442D7, 0xB2AD29F4, 0xA96F30BC,
      0xC550B189, 0xE38DEE4D⟩ ∧
    sm3Rounds (schedule abcBlock) iv 0 17 = ⟨0x796AFAB1, 0x34D1691E, 0xA52EF0F8, 0x92B57849, 0x067550F5, 0x61F99646,
      0xC999F74A, 0x2AA0D251⟩ := by decide +kernel

theorem test_sm3_abc : sm3 abc = abcDigest := by decide +kernel

/-- SM3 of the empty message (90_conflicts.md C1). -/
theorem test_sm3_empty :
    sm3 [] = bytesOf 32 0x1ab21d8355cfa17f8e61194831e81a8f22bec8c728fefb747ed035eb5082aa2b := by decide +kernel

/-- "abcd" repeated 16 times, a whole block (95_test_vectors.md section 2.1). -/
theorem test_sm3_block :
    sm3 (List.replicate 16 (bytesOf 4 0x61626364)).flatten =
      bytesOf 32 0xdebe9ff92275b8a138604889c18e5a4d6fdb70e5387e5765293dcba39c0c5732 := by decide +kernel

/-- The padding boundary: 55 and 56 bytes of "a" (95_test_vectors.md section 2.4). -/
theorem test_sm3_55 :
    sm3 (List.replicate 55 0x61#8) =
      bytesOf 32 0x288337eef51eec62e7544d7270424c8dbe656254c99852870a73b2453a6a7fb1 := by decide +kernel
theorem test_sm3_56 :
    sm3 (List.replicate 56 0x61#8) =
      bytesOf 32 0xba00ebedaab54065a5fd4f9f56326016203166bcee3eed44ea868d59d67aa3c8 := by decide +kernel

/-- H3: a key of exactly one block (95_test_vectors.md section 3). -/
theorem test_hmac_block_key :
    hmacSm3 ((List.range 64).map (BitVec.ofNat 8)) abc =
      bytesOf 32 0x14ccadbee92a9be279c849b7359fafac65a9f04b156fa8723a72700e506927d5 := by decide +kernel

/-- H4: a key longer than a block (95_test_vectors.md section 3). -/
theorem test_hmac_long_key :
    hmacSm3 ((List.range 65).map (BitVec.ofNat 8)) abc =
      bytesOf 32 0xd8e0da366fe29229d40388a3c8632b6e01c2aaa6695d3f8983dad620ac27624d := by decide +kernel

/-! ### Base64 (95_test_vectors.md section 4) -/

/-- "foobar", "fooba", "foob" in the standard alphabet. -/
theorem test_encode_std :
    b64Encode .std (bytesOf 6 0x666F6F626172) = (bytesOf 8 0x5A6D3976596D4679) ∧
    b64Encode .std (bytesOf 5 0x666F6F6261) = (bytesOf 8 0x5A6D3976596D453D) ∧
    b64Encode .std (bytesOf 4 0x666F6F62) = (bytesOf 8 0x5A6D397659673D3D) := by decide

/-- FB FF, FB EF BE and "f" in the URL-safe alphabet. -/
theorem test_encode_url :
    b64Encode .url (bytesOf 2 0xFBFF) = (bytesOf 3 0x2D5F38) ∧ b64Encode .url (bytesOf 3 0xFBEFBE) = (bytesOf 4 0x2D2D2D2D) ∧
    b64Encode .url (bytesOf 1 0x66) = (bytesOf 2 0x5A67) := by decide

/-- The two alphabets' own characters. -/
theorem test_decode_alphabets :
    b64Decode .std (bytesOf 4 0x2B2F383D) = .ok (bytesOf 2 0xFBFF) ∧ b64Decode .url (bytesOf 4 0x2B2F383D) = .error .decodeChar ∧
    b64Decode .url (bytesOf 4 0x2D5F383D) = .ok (bytesOf 2 0xFBFF) ∧ b64Decode .std (bytesOf 3 0x2D5F38) = .error .decodeChar := by decide

/-- Any trailing run of "=", leftover bits dropped, and a text of only padding. -/
theorem test_decode_padding :
    b64Decode .std (bytesOf 5 0x5A673D3D3D) = .ok [0x66#8] ∧ b64Decode .std (bytesOf 4 0x5A683D3D) = .ok [0x66#8] ∧ b64Decode .std (bytesOf 4 0x3D3D3D3D) = .ok [] := by decide

/-- DECODE_LEN, DECODE_CHAR before it, and "=" in the middle. -/
theorem test_decode_errors :
    b64Decode .std (bytesOf 5 0x5A6D397659) = .error .decodeLen ∧ b64Decode .std (bytesOf 1 0x2A) = .error .decodeChar ∧
    b64Decode .std (bytesOf 4 0x5A6D3D39) = .error .decodeChar := by decide

/-! ### The commands, one step each -/

/-- INIT from a live HMAC abandons it (95_test_vectors.md section 3): KB is 0 and STATUS 0x00000100. -/
theorem test_init : nextIs (exec .init liveHmac) (fun t =>
    decide (t.kb = List.replicate 64 0#8 ∧ t.hash.v.v7 = 0xB0FB0E4E#32 ∧ t.hash.nblk = 0 ∧ statusWord t = 0x00000100#32)) = true := by
  decide

/-- UPDATE of the last DMEM byte is in range: BLEN = 1; one byte more is RANGE (section 5). -/
theorem test_update_range :
    nextIs (exec .update (cmdState .hashActive 0xFFFF [0x61#8] 0)) (fun t =>
      decide (t.hash.blen = 1 ∧ statusWord t = 0x00000100#32)) = true ∧
    nextIs (exec .update { cmdState .hashActive 0xFFFF [0x61#8] 0 with len := 2 }) (fun t =>
      decide (t.hash.blen = 0 ∧ statusWord t = 0x00000142#32)) = true := by decide

/-- UPDATE of 1 byte after 63 completes a block: (NBLK, BLEN) = (1, 0) (section 2.5). -/
theorem test_update_block :
    nextIs (exec .update { cmdState .hashActive 0 [0x64#8] 0 with
        hash := { v := iv, nblk := 0, buf := (List.replicate 16 (bytesOf 4 0x61626364)).flatten.take 63 } })
      (fun t => decide (t.hash.blen = 0 ∧ t.hash.nblk = 1)) = true := by decide +kernel

/-- FINISH after "abc" at the last possible DST writes the digest, and the V registers hold its words (section 7.1). -/
theorem test_finish :
    nextIs (exec .finish { cmdState .hashActive 0 abc 0xFFE0 with hash := { v := iv, nblk := 0, buf := abc } })
      (fun t => decide (t.mem.readBytes 0xFFE0 32 = some abcDigest ∧ t.hash.v.v0 = 0x66C7F0F4#32 ∧ t.hash.blen = 0 ∧
        statusWord t = 0x00000200#32 ∧ t.outlen = 32)) = true := by decide +kernel

/-- FINISH a second time is STATE (section 5). -/
theorem test_finish_twice :
    nextIs (exec .finish (cmdState .hashDone 0 abc 0)) (fun t => decide (statusWord t = 0x00000222#32)) = true := by decide

/-- DIGEST in place: the source is read before the destination is written (R176). -/
theorem test_digest_in_place :
    nextIs (exec .digest (cmdState .idle 0 abc 0)) (fun t =>
      decide (t.mem.readBytes 0 32 = some abcDigest ∧ statusWord t = 0x00000200#32)) = true := by decide +kernel

/-- DIGEST of no bytes at SRC = 0xFFFFFFFF has a valid source, and a destination outside DMEM (section 5). -/
theorem test_digest_range :
    nextIs (exec .digest { State.reset with src := 0xFFFFFFFF, dst := 0xFFFFFFFF })
      (fun t => decide (statusWord t = 0x00000042#32)) = true := by decide

/-- COMPRESS of PAD("abc") from the IV gives the digest's words (section 2.6). -/
theorem test_compress :
    nextIs (exec .compress { cmdState .idle 0 abcBlock 0 with hash := { v := iv, nblk := 0, buf := [] } })
      (fun t => decide (t.hash.v.v0 = 0x66C7F0F4#32 ∧ t.hash.v.v7 = 0x8F4BA8E0#32 ∧ t.hash.nblk = 0 ∧ statusWord t = 0)) = true := by
  decide +kernel

/-- COMPRESS with LEN = 63: LENGTH from reset, STATE in a live HMAC (section 2.6). -/
theorem test_compress_errors :
    nextIs (exec .compress { State.reset with len := 63 }) (fun t => decide (statusWord t = 0x00000032#32)) = true ∧
    nextIs (exec .compress { State.reset with len := 63, ctx := .hmacInner })
      (fun t => decide (statusWord t = 0x00000322#32)) = true := by decide

/-- HMAC_INIT with key "123" (section 3). -/
theorem test_hmacInit :
    nextIs (exec .hmacInit (keyState .idle 0 (bytesOf 3 0x313233))) (fun t =>
      decide (t.kb = [0x07#8, 0x04#8, 0x05#8] ++ List.replicate 61 0x36#8 ∧ t.hash.nblk = 1 ∧ t.hash.blen = 0 ∧
        statusWord t = 0x00000300#32)) = true := by decide +kernel

/-- HMAC_UPDATE of 14 bytes: NBLK = 1, BLEN = 14 (section 3); with CTX = 4 it is STATE. -/
theorem test_hmacUpdate :
    nextIs (exec .hmacUpdate { cmdState .hmacInner 0x100 h1Message 0 with hash := { v := iv, nblk := 1, buf := [] } })
      (fun t => decide (t.hash.nblk = 1 ∧ t.hash.blen = 14 ∧ statusWord t = 0x00000300#32)) = true ∧
    nextIs (exec .hmacUpdate (cmdState .hmacDone 0x100 h1Message 0)) (fun t => decide (statusWord t = 0x00000422#32)) = true := by
  decide

/-- HMAC_FINISH of H1 writes its MAC and zeroes the context (section 3). -/
theorem test_hmacFinish :
    nextIs (exec .hmacFinish { cmdState .hmacInner 0 [] 0x200 with
        kb := [0x07#8, 0x04#8, 0x05#8] ++ List.replicate 61 0x36#8,
        hash := { v := cf iv ([0x07#8, 0x04#8, 0x05#8] ++ List.replicate 61 0x36#8), nblk := 1, buf := h1Message } })
      (fun t => decide (t.mem.readBytes 0x200 32 = some h1Mac ∧ t.hash = HashState.zero ∧ t.kb = List.replicate 64 0#8 ∧
        statusWord t = 0x00000400#32)) = true := by decide +kernel

/-- HMAC_FINISH with DST = 0xFFE1 is RANGE and the HMAC stays live (section 3). -/
theorem test_hmacFinish_range :
    nextIs (exec .hmacFinish { liveHmac with dst := 0xFFE1 })
      (fun t => decide (t.kb = liveHmac.kb ∧ t.hash = liveHmac.hash ∧ statusWord t = 0x00000342#32)) = true := by decide

/-- HMAC in one shot gives H1's MAC. -/
theorem test_hmac :
    nextIs (exec .hmac { cmdState .idle 0x100 h1Message 0x200 with
        mem := Memory.writeBytes (Memory.writeBytes [] 0 (bytesOf 3 0x313233)) 0x100 h1Message, klen := 3 })
      (fun t => decide (t.mem.readBytes 0x200 32 = some h1Mac ∧ t.hash = HashState.zero ∧ statusWord t = 0x00000400#32 ∧
        t.outlen = 32)) = true := by decide +kernel

/-- B64_ENC.URL of FB FF; the standard text of the same bytes would meet the source at this DST (R260). -/
theorem test_b64Enc :
    nextIs (exec (.b64Enc .url) (cmdState .idle 3 (bytesOf 2 0xFBFF) 0)) (fun t =>
      decide (t.mem.readBytes 0 5 = some ((bytesOf 3 0x2D5F38) ++ bytesOf 2 0xFBFF) ∧ t.outlen = 3 ∧ statusWord t = 0)) = true ∧
    nextIs (exec (.b64Enc .std) (cmdState .idle 3 (bytesOf 2 0xFBFF) 0)) (fun t =>
      decide (t.mem.readBytes 3 2 = some (bytesOf 2 0xFBFF) ∧ t.outlen = 0 ∧ statusWord t = 0x00000072#32)) = true := by decide

/-- B64_ENC of nothing at addresses outside DMEM succeeds (section 5). -/
theorem test_b64Enc_empty :
    nextIs (exec (.b64Enc .std) { State.reset with src := 0xFFFFFFFF, dst := 0xFFFFFFFF })
      (fun t => decide (statusWord t = 0 ∧ t.outlen = 0)) = true := by decide

/-- B64_DEC of "Zm9vYmFy" (section 7.3): at 0xFFFA it fits, at 0xFFFB it is RANGE. -/
theorem test_b64Dec :
    nextIs (exec (.b64Dec .std) (cmdState .idle 0 (bytesOf 8 0x5A6D3976596D4679) 0xFFFA)) (fun t =>
      decide (t.mem.readBytes 0xFFFA 6 = some (bytesOf 6 0x666F6F626172) ∧ t.outlen = 6 ∧ statusWord t = 0)) = true ∧
    nextIs (exec (.b64Dec .std) (cmdState .idle 0 (bytesOf 8 0x5A6D3976596D4679) 0xFFFB)) (fun t =>
      decide (statusWord t = 0x00000042#32)) = true := by decide

/-- The priority of B64_DEC (section 5): "*" with DST outside DMEM is DECODE_CHAR; "Zm9vYmFy" over itself is OVERLAP. -/
theorem test_b64Dec_errors :
    nextIs (exec (.b64Dec .std) (cmdState .idle 0 [0x2A#8] 0x20000)) (fun t => decide (statusWord t = 0x00000052#32)) = true ∧
    nextIs (exec (.b64Dec .std) (cmdState .idle 0 (bytesOf 8 0x5A6D3976596D4679) 4)) (fun t => decide (statusWord t = 0x00000072#32)) = true := by decide

/-! ### The step, the host and the reset input -/

/-- An illegal word as the first instruction: STATUS 0x00000012 (section 5). -/
theorem test_step_illegal :
    nextIs (step (State.reset.withFetchWord 32 0xC)) (fun t => decide (statusWord t = 0x00000012#32)) = true := by decide

/-- DIGEST of an unwritten byte records READ_UNWRITTEN (section 6), and the next step stops with it. -/
theorem test_step_unwritten :
    nextIs (step ({ State.reset with len := 1 }.withFetchWord 32 4)) (fun t => decide (t.faults = [.readUnwritten] ∧ t.mem = [])) = true ∧
    (match step { State.reset with faults := [.readUnwritten] } with | .fault f => decide (f = .readUnwritten) | _ => false) = true := by
  decide

/-- Both orders of the CMD and LEN writes of P3 (section 7.3): LEN written while busy is dropped, or accepted after the
command. -/
theorem test_step_both_orders :
    nextIs (step { cmdState .idle 0 [0x2A#8] 0 with
        cmdl := 0xB, busy := true, host := [.writeReg 32 0x0C#8 4], sched := [.host] })
      (fun t => decide (t.len = 1 ∧ t.wdrop = true ∧ t.busy = true)) = true ∧
    nextIs (step { cmdState .idle 0 [0x2A#8] 0 with
        cmdl := 0xB, busy := true, host := [.writeReg 32 0x0C#8 4], sched := [.engine, .host] })
      (fun t => decide (t.wdrop = false ∧ t.busy = false ∧ statusWord t = 0x00000052#32)) = true := by decide

/-- A host read of DMEM while busy is a hazard (R310). -/
theorem test_host_hazard :
    nextIs (hostAccess (.readMem 5) liveHmac) (fun t => decide (t.faults = [.hazardDmemBusy] ∧ t.rdata = none)) = true := by decide

/-- V0 reads 0 in a live HMAC and a write to it is dropped; after it, the word written is read (R28). -/
theorem test_host_v :
    nextIs (hostAccess (.readReg 32 0x20#8) { liveHmac with busy := false }) (fun t => decide (t.rdata = some 0)) = true ∧
    nextIs (hostAccess (.writeReg 32 0x20#8 7) { liveHmac with busy := false }) (fun t =>
      decide (t.hash.v = iv ∧ t.wdrop = true)) = true ∧
    nextIs (hostAccess (.writeReg 32 0x3C#8 7) State.reset) (fun t => decide (t.hash.v.v7 = 7 ∧ t.hash.v.v0 = 0)) = true := by
  decide

/-- The reset input after INIT and UPDATE("abc") (section 6), and while DIGEST is pending (R301): the destination range
becomes unwritten. -/
theorem test_reset_input :
    nextIs (step { cmdState .hashActive 0 abc 0 with hash := { v := iv, nblk := 0, buf := abc }, sched := [.reset] })
      (fun t => decide (t.ctx = .idle ∧ t.hash = HashState.zero ∧ t.mem.readBytes 0 3 = some abc)) = true ∧
    nextIs (step { cmdState .idle 0 abc 2 with cmdl := 4, busy := true, sched := [.reset] })
      (fun t => decide (t.busy = false ∧ t.mem.readByte 1 = some 0x62#8 ∧ t.mem.readByte 2 = none)) = true := by decide

/-- P1's first lines as host steps (R100). -/
theorem test_expand :
    expandProgram [.wr .src 0x100, .sb 0x10 [1#8, 2#8], .lb 0x10 2, .run .finish] =
      [.writeReg 32 0x08#8 0x100#32, .writeMem 0x10 1#8, .writeMem 0x11 2#8, .readMem 0x10, .readMem 0x11,
       .writeReg 32 0x00#8 0x3#32, .poll] := by decide

/-! ### Witnesses: states and operands that meet the hypotheses of the statements, clause by clause -/

/-- A pending command. -/
def pending (s : State) (i : Instr) : State := { s with cmdl := encode i, busy := true }

theorem witness_OpcodeMapIsExact :
    0x0#32 ∉ [0x1#32, 0x2#32, 0x3#32, 0x4#32, 0x5#32, 0x6#32, 0x7#32, 0x8#32, 0x9#32, 0xA#32, 0xB#32, 0x1A#32, 0x1B#32] ∧
    0xC#32 ∉ [0x1#32, 0x2#32, 0x3#32, 0x4#32, 0x5#32, 0x6#32, 0x7#32, 0x8#32, 0x9#32, 0xA#32, 0xB#32, 0x1A#32, 0x1B#32] ∧
    0x19#32 ∉ [0x1#32, 0x2#32, 0x3#32, 0x4#32, 0x5#32, 0x6#32, 0x7#32, 0x8#32, 0x9#32, 0xA#32, 0xB#32, 0x1A#32, 0x1B#32] := by
  decide

theorem witness_DecodeAgreesWithEncode :
    decode 0x1B#32 = .ok (.b64Dec .url) ∧ 0x1B#32 = encode (.b64Dec .url) := by decide

theorem witness_IllegalWordRaisesIllegal :
    (State.reset.withFetchWord 32 0x2A).faults = [] ∧ nextTurn (State.reset.withFetchWord 32 0x2A) = .engine ∧
    (State.reset.withFetchWord 32 0x2A).busy = true ∧
    decode (State.reset.withFetchWord 32 0x2A).cmdl = .error .resNonzero ∧
    decode (State.reset.withFetchWord 32 0xF).cmdl = .error .opReserved ∧
    decode (State.reset.withFetchWord 32 0x11).cmdl = .error .alphNotBase64 := by decide

theorem witness_StepRunsThePendingCommand :
    ((pending State.reset .init).faults = [] ∧ nextTurn (pending State.reset .init) = .engine ∧
      (pending State.reset .init).busy = true ∧ decode (pending State.reset .init).cmdl = .ok .init ∧
      nextIs (exec .init (pending State.reset .init)) (fun _ => true) = true) ∧
    (decode (pending { State.reset with len := 1 } .digest).cmdl = .ok .digest ∧
      exec .digest (pending { State.reset with len := 1 } .digest) = .fault .readUnwritten) ∧
    (let s := { State.reset with sched := [.engine] }
     s.faults = [] ∧ nextTurn s = .engine ∧ s.busy = false) ∧
    (let s := { State.reset with host := [.readReg 32 0x04#8] }
     s.faults = [] ∧ nextTurn s = .host ∧ s.host = .readReg 32 0x04#8 :: []) ∧
    (State.reset.faults = [] ∧ nextTurn State.reset = .host ∧ State.reset.host = []) ∧
    (liveHmac.faults = [] ∧ nextTurn liveHmac = .host ∧ liveHmac.host = .poll :: [] ∧ liveHmac.busy = true) :=
  ⟨by decide, ⟨rfl, rfl⟩, by decide⟩

theorem witness_RecordedFaultStopsTheMachine : { State.reset with faults := [.hazardDmemBusy] }.faults ≠ [] := by decide

theorem witness_PendingCommandExecutes :
    let s := pending (cmdState .idle 0xFFFF [0x61#8] 0) .digest
    s.faults = [] ∧ s.sched = [] ∧ s.busy = true ∧ WrittenRange s s.src.toNat s.len.toNat ∧
      WrittenRange s s.kadr.toNat s.klen.toNat := by
  refine ⟨rfl, rfl, rfl, fun k hk => ?_, fun k hk => absurd hk (Nat.not_lt_zero k)⟩
  have : k = 0 := Nat.lt_one_iff.mp hk
  subst this
  decide

theorem witness_RunLineCompletesTheCommand :
    let s := { State.reset with host := expandLine (.run .init) ++ [HostStep.poll] }
    s.faults = [] ∧ s.sched = [] ∧ s.busy = false ∧ s.host = expandLine (.run .init) ++ [HostStep.poll] ∧
      ∃ t, exec .init { s with cmdl := encode .init, busy := true, host := .poll :: [.poll] } = .next t :=
  ⟨rfl, rfl, rfl, rfl, _, rfl⟩

theorem witness_UpdateAbsorbsOrErrs :
    State.reset.ctx ≠ .hashActive ∧
    (let s := { State.reset with ctx := .hashActive, src := 0xFFFF, len := 2 }
     s.ctx = .hashActive ∧ ¬InDmem s s.src.toNat s.len.toNat) ∧
    (let s := cmdState .hashActive 0xFFFF [0x61#8] 0
     s.ctx = .hashActive ∧ InDmem s s.src.toNat s.len.toNat ∧ s.mem.readBytes s.src.toNat s.len.toNat = some [0x61#8]) := by
  decide

theorem witness_FinishWritesDigestOrErrs :
    State.reset.ctx ≠ .hashActive ∧
    (let s := { State.reset with ctx := .hashActive, dst := 0xFFE1 }
     s.ctx = .hashActive ∧ ¬InDmem s s.dst.toNat 32) ∧
    (let s := { State.reset with ctx := .hashActive, dst := 0xFFE0 }
     s.ctx = .hashActive ∧ InDmem s s.dst.toNat 32) := by decide

theorem witness_DigestIsOneShotSm3OrErrs :
    (let s := { State.reset with dst := 0xFFE1 }
     ¬(InDmem s s.src.toNat s.len.toNat ∧ InDmem s s.dst.toNat 32)) ∧
    (let s := { State.reset with src := 0x10000, len := 1 }
     ¬(InDmem s s.src.toNat s.len.toNat ∧ InDmem s s.dst.toNat 32)) ∧
    (let s := cmdState .hmacInner 0xFFFF [0x61#8] 0xFFE0
     InDmem s s.src.toNat s.len.toNat ∧ InDmem s s.dst.toNat 32 ∧
       s.mem.readBytes s.src.toNat s.len.toNat = some [0x61#8]) := by decide

theorem witness_CompressAppliesCfOrErrs :
    liveHmac.ctx = .hmacInner ∧
    (let s := { State.reset with len := 63 }
     s.ctx ≠ .hmacInner ∧ s.len.toNat % 64 ≠ 0) ∧
    (let s := { State.reset with src := 0xFFC1, len := 64 }
     s.ctx ≠ .hmacInner ∧ s.len.toNat % 64 = 0 ∧ ¬InDmem s s.src.toNat s.len.toNat) ∧
    (let s := cmdState .hashActive 0xFFC0 abcBlock 0
     s.ctx ≠ .hmacInner ∧ s.len.toNat % 64 = 0 ∧ InDmem s s.src.toNat s.len.toNat ∧
       s.mem.readBytes s.src.toNat s.len.toNat = some abcBlock) ∧
    (let s := { State.reset with src := 0xFFFFFFFF }
     s.len.toNat % 64 = 0 ∧ InDmem s s.src.toNat s.len.toNat ∧ s.mem.readBytes s.src.toNat s.len.toNat = some []) := by
  decide +kernel

theorem witness_HmacInitPrimesInnerHashOrErrs :
    (let s := { State.reset with kadr := 0xFFFF, klen := 2 }
     ¬InDmem s s.kadr.toNat s.klen.toNat) ∧
    (let s := keyState .hmacInner 0xFFFF [0x61#8]
     InDmem s s.kadr.toNat s.klen.toNat ∧ s.mem.readBytes s.kadr.toNat s.klen.toNat = some [0x61#8]) := by decide

theorem witness_HmacUpdateAbsorbsOrErrs :
    State.reset.ctx ≠ .hmacInner ∧
    (let s := { liveHmac with src := 0xFFFF, len := 2 }
     s.ctx = .hmacInner ∧ ¬InDmem s s.src.toNat s.len.toNat) ∧
    (let s := { liveHmac with src := 0xFFFF, len := 1 }
     s.ctx = .hmacInner ∧ InDmem s s.src.toNat s.len.toNat ∧ s.mem.readBytes s.src.toNat s.len.toNat = some [0x62#8]) := by
  decide

theorem witness_HmacFinishWritesMacOrErrs :
    State.reset.ctx ≠ .hmacInner ∧
    (let s := { liveHmac with dst := 0xFFE1 }
     s.ctx = .hmacInner ∧ ¬InDmem s s.dst.toNat 32) ∧
    (let s := { liveHmac with dst := 0xFFE0 }
     s.ctx = .hmacInner ∧ InDmem s s.dst.toNat 32) := by decide

theorem witness_HmacIsOneShotMacOrErrs :
    (let s := { State.reset with kadr := 0xFFFF, klen := 2 }
     ¬(InDmem s s.kadr.toNat s.klen.toNat ∧ InDmem s s.src.toNat s.len.toNat ∧ InDmem s s.dst.toNat 32)) ∧
    (let s := { State.reset with dst := 0xFFE1 }
     ¬(InDmem s s.kadr.toNat s.klen.toNat ∧ InDmem s s.src.toNat s.len.toNat ∧ InDmem s s.dst.toNat 32)) ∧
    (let s := { cmdState .idle 0xFFFF [0x61#8] 0xFFE0 with kadr := 0xFFFF, klen := 1 }
     InDmem s s.kadr.toNat s.klen.toNat ∧ InDmem s s.src.toNat s.len.toNat ∧ InDmem s s.dst.toNat 32 ∧
       s.mem.readBytes s.kadr.toNat s.klen.toNat = some [0x61#8] ∧
       s.mem.readBytes s.src.toNat s.len.toNat = some [0x61#8]) := by decide

/-- The four outcomes of B64_ENC: source range, destination range (the text of one byte has four characters), overlap in
one byte, and success beside the source. -/
theorem witness_B64EncWritesTextOrErrs :
    (let s := { State.reset with src := 0x10000, len := 1 }
     ¬InDmem s s.src.toNat s.len.toNat) ∧
    (let s := cmdState .idle 4 [0x66#8] 0xFFFD
     InDmem s s.src.toNat s.len.toNat ∧ s.mem.readBytes s.src.toNat s.len.toNat = some [0x66#8] ∧
       ¬InDmem s s.dst.toNat (b64Encode .std [0x66#8]).length) ∧
    (let s := cmdState .idle 4 [0x66#8] 1
     InDmem s s.dst.toNat (b64Encode .std [0x66#8]).length ∧
       s.len.toNat > 0 ∧ (b64Encode .std [0x66#8]).length > 0 ∧
       s.src.toNat < s.dst.toNat + (b64Encode .std [0x66#8]).length ∧ s.dst.toNat < s.src.toNat + s.len.toNat) ∧
    (let s := cmdState .idle 4 [0x66#8] 0
     InDmem s s.dst.toNat (b64Encode .std [0x66#8]).length ∧
       ¬(s.len.toNat > 0 ∧ (b64Encode .std [0x66#8]).length > 0 ∧
         s.src.toNat < s.dst.toNat + (b64Encode .std [0x66#8]).length ∧ s.dst.toNat < s.src.toNat + s.len.toNat)) := by
  decide

/-- The six outcomes of B64_DEC of two or four characters at 4. -/
theorem witness_B64DecWritesBytesOrErrs :
    (let s := { State.reset with src := 0x10000, len := 1 }
     ¬InDmem s s.src.toNat s.len.toNat) ∧
    (let s := cmdState .idle 4 [0x2A#8] 0
     InDmem s s.src.toNat s.len.toNat ∧ s.mem.readBytes s.src.toNat s.len.toNat = some [0x2A#8] ∧
       b64Decode .url [0x2A#8] = .error .decodeChar) ∧
    b64Decode .url [0x51#8] = .error .decodeLen ∧
    (let s := cmdState .idle 4 [0x5A#8, 0x67#8] 0x10000
     InDmem s s.src.toNat s.len.toNat ∧ s.mem.readBytes s.src.toNat s.len.toNat = some [0x5A#8, 0x67#8] ∧
       b64Decode .url [0x5A#8, 0x67#8] = .ok [0x66#8] ∧ ¬InDmem s s.dst.toNat [0x66#8].length) ∧
    (let s := cmdState .idle 4 [0x5A#8, 0x67#8] 5
     InDmem s s.dst.toNat [0x66#8].length ∧ s.len.toNat > 0 ∧ [0x66#8].length > 0 ∧
       s.src.toNat < s.dst.toNat + [0x66#8].length ∧ s.dst.toNat < s.src.toNat + s.len.toNat) ∧
    (let s := cmdState .idle 4 [0x5A#8, 0x67#8] 6
     InDmem s s.dst.toNat [0x66#8].length ∧ ¬(s.len.toNat > 0 ∧ [0x66#8].length > 0 ∧
       s.src.toNat < s.dst.toNat + [0x66#8].length ∧ s.dst.toNat < s.src.toNat + s.len.toNat)) := by decide

theorem witness_ErrorsArePrecise : ∃ t, exec .hmacUpdate State.reset = .next t ∧ t.err = true := ⟨_, rfl, rfl⟩

theorem witness_CommandStatusIsConsistent :
    (∃ t, exec .init State.reset = .next t ∧ t.err = false) ∧ ∃ t, exec .update State.reset = .next t ∧ t.err = true :=
  ⟨⟨_, rfl, rfl⟩, _, rfl, rfl⟩

theorem witness_CommandsKeepOperandsAndHostSide : ∃ t, exec .hmacInit liveHmac = .next t := ⟨_, rfl⟩

theorem witness_CommandsFrameMemory :
    State.reset.cfg.Legal ∧ (∃ t, exec .digest State.reset = .next t ∧ t.outlen = 32) ∧
    (∃ t, exec .init State.reset = .next t) ∧ (∃ t, exec .compress State.reset = .next t) ∧
    (∃ t, exec .update (cmdState .hashActive 0 [] 0) = .next t) ∧ (∃ t, exec .hmacInit State.reset = .next t) ∧
    ∃ t, exec .hmacUpdate liveHmac = .next t :=
  ⟨by decide, ⟨_, rfl, rfl⟩, ⟨_, rfl⟩, ⟨_, rfl⟩, ⟨_, rfl⟩, ⟨_, rfl⟩, _, rfl⟩

theorem witness_CommandsFrameContext :
    (∃ t, exec .compress State.reset = .next t) ∧ (∃ t, exec .update (cmdState .hashActive 0 [] 0) = .next t) ∧
    (∃ t, exec .hmacUpdate liveHmac = .next t) ∧ (∃ t, exec .finish (cmdState .hashActive 0 [] 0) = .next t) ∧
    (∃ t, exec (.b64Enc .url) liveHmac = .next t) ∧ ∃ t, exec (.b64Dec .std) liveHmac = .next t :=
  ⟨⟨_, rfl⟩, ⟨_, rfl⟩, ⟨_, rfl⟩, ⟨_, rfl⟩, ⟨_, rfl⟩, _, rfl⟩

theorem witness_PhaseTransitionsFollowTheTable :
    phaseTable .compress liveHmac.ctx = none ∧
    (phaseTable .init liveHmac.ctx = some .hashActive ∧ ∃ t, exec .init liveHmac = .next t ∧ t.err = false) ∧
    (phaseTable .compress State.reset.ctx = some .idle ∧
      ∃ t, exec .compress { State.reset with len := 63 } = .next t ∧ t.err = true) :=
  ⟨rfl, ⟨rfl, _, rfl, rfl⟩, rfl, _, rfl, rfl⟩

/-- For each command that reads DMEM, a state whose checks pass and whose own range holds an unwritten byte, its last one where
the range has more than one. -/
theorem witness_CommandsStopOnlyOnUnwrittenBytes :
    exec .digest { State.reset with len := 1 } = .fault .readUnwritten ∧
    (let s := { cmdState .hashActive 0xFFFE [0x61#8] 0 with len := 2 }
     s.ctx = .hashActive ∧ InDmem s s.src.toNat s.len.toNat ∧ HoldsUnwritten s s.src.toNat s.len.toNat) ∧
    (let s := { cmdState .idle 0xFFFE [0x61#8] 0xFFE0 with len := 2 }
     InDmem s s.src.toNat s.len.toNat ∧ InDmem s s.dst.toNat 32 ∧ HoldsUnwritten s s.src.toNat s.len.toNat) ∧
    (let s := { State.reset with src := 0xFFC0, len := 64 }
     s.ctx ≠ .hmacInner ∧ s.len.toNat % 64 = 0 ∧ InDmem s s.src.toNat s.len.toNat ∧
       HoldsUnwritten s s.src.toNat s.len.toNat) ∧
    (let s := { State.reset with kadr := 0xFFFF, klen := 1 }
     InDmem s s.kadr.toNat s.klen.toNat ∧ HoldsUnwritten s s.kadr.toNat s.klen.toNat) ∧
    (let s := { liveHmac with src := 5, len := 2 }
     s.ctx = .hmacInner ∧ InDmem s s.src.toNat s.len.toNat ∧ HoldsUnwritten s s.src.toNat s.len.toNat) ∧
    (let s := { State.reset with kadr := 0xFFFF, klen := 1 }
     InDmem s s.kadr.toNat s.klen.toNat ∧ InDmem s s.src.toNat s.len.toNat ∧ InDmem s s.dst.toNat 32 ∧
       HoldsUnwritten s s.kadr.toNat s.klen.toNat) ∧
    (let s := { keyState .idle 0xFFFF [0x61#8] with src := 0, len := 1 }
     InDmem s s.kadr.toNat s.klen.toNat ∧ InDmem s s.src.toNat s.len.toNat ∧ InDmem s s.dst.toNat 32 ∧
       HoldsUnwritten s s.src.toNat s.len.toNat) :=
  ⟨rfl, ⟨by decide, by decide, 0xFFFF, by decide⟩, ⟨by decide, by decide, 0xFFFF, by decide⟩,
    ⟨by decide, by decide, by decide, 0xFFFF, by decide⟩, ⟨by decide, 0xFFFF, by decide⟩,
    ⟨by decide, by decide, 6, by decide⟩, ⟨by decide, by decide, by decide, 0xFFFF, by decide⟩,
    by decide, by decide, by decide, 0, by decide⟩

theorem witness_KeyMaterialIsZeroed :
    (∃ t, exec .init liveHmac = .next t ∧ t.err = false) ∧ (∃ t, exec .digest liveHmac = .next t ∧ t.err = false) ∧
    (∃ t, exec .hmacFinish liveHmac = .next t ∧ t.err = false) ∧ ∃ t, exec .hmac liveHmac = .next t ∧ t.err = false :=
  ⟨⟨_, rfl, rfl⟩, ⟨_, rfl, rfl⟩, ⟨_, rfl, rfl⟩, _, rfl, rfl⟩

theorem witness_RestartForgetsTheOldContext :
    (∃ t, exec .init liveHmac = .next t ∧ t.err = false) ∧ (∃ t, exec .digest liveHmac = .next t ∧ t.err = false) ∧
    (∃ t, exec .hmacInit liveHmac = .next t ∧ t.err = false) ∧ ∃ t, exec .hmac liveHmac = .next t ∧ t.err = false :=
  ⟨⟨_, rfl, rfl⟩, ⟨_, rfl, rfl⟩, ⟨_, rfl, rfl⟩, _, rfl, rfl⟩

/-- The first and the last word of each part of the schedule. -/
theorem witness_ExpanderFollowsTheRecurrence : 15 < 16 ∧ (16 ≤ 16 ∧ 16 ≤ 67) ∧ 16 ≤ 67 ∧ 67 ≤ 67 ∧ 63 ≤ 63 := by decide

theorem witness_CompressNAppliesCfInOrder : abcBlock.length = 64 ∧ (abcBlock ++ abcBlock).length % 64 = 0 ∧ 63 ≤ 63 := by decide

/-- A context with `n` bytes pending. -/
def pendingBytes (n : Nat) : HashState := { v := iv, nblk := 1, buf := List.replicate n 0x61#8 }

theorem witness_AbsorbIsChunkInvariant : (pendingBytes 63).blen < 64 := by decide
theorem witness_PaddingFillsOneOrTwoBlocks :
    (pendingBytes 0).blen < 64 ∧ (pendingBytes 55).blen = 55 ∧ (pendingBytes 56).blen = 56 ∧ (pendingBytes 63).blen < 64 ∧
      0 < 8 ∧ 7 < 8 := by
  decide
theorem witness_FinalizeCompressesOnceOrTwice :
    ((pendingBytes 55).blen < 64 ∧ (pendingBytes 55).blen ≤ 55) ∧ (pendingBytes 56).blen < 64 ∧ 56 ≤ (pendingBytes 56).blen := by
  decide
theorem witness_KeyBlockAndPadConversion :
    (List.replicate 64 0x61#8).length ≤ 64 ∧ 64 < (List.replicate 65 0x61#8).length := by decide
theorem witness_LongKeyEqualsItsDigest : 64 < (List.replicate 65 0x61#8).length := by decide
theorem witness_DigestEqualsInitUpdateFinish : ∃ t, exec .digest (cmdState .idle 0 [0x61#8] 0) = .next t ∧ t.err = false :=
  ⟨_, rfl, rfl⟩
theorem witness_HmacEqualsInitUpdateFinish : ∃ t, exec .hmac (cmdState .hashDone 0 [0x61#8] 0) = .next t ∧ t.err = false :=
  ⟨_, rfl, rfl⟩

theorem witness_Base64Lengths :
    b64Decode .std [0x5A#8, 0x67#8] = .ok [0x66#8] ∧ b64Decode .url [] = .ok [] := by decide

theorem witness_DecodeRomInvertsEncodeRom : ∀ v : BitVec 6, encRom .std v ≠ 0x3D#8 ∧ encRom .url v ≠ 0x2B#8 := by decide

/-- A text for each outcome of B64DEC. -/
theorem witness_DecodeFailsExactlyWhenInvalid :
    (0x2A#8 ∈ nonPadding [0x2A#8] ∧ decRom .std 0x2A#8 = 77#8) ∧
    ((∀ c, c ∈ nonPadding [0x51#8] → decRom .std c ≠ 77#8) ∧ (nonPadding [0x51#8]).length % 4 = 1) ∧
    (∀ c, c ∈ nonPadding [0x5A#8, 0x67#8, 0x3D#8] → decRom .std c ≠ 77#8) ∧
      (nonPadding [0x5A#8, 0x67#8, 0x3D#8]).length % 4 ≠ 1 := by decide

theorem witness_HostReadsReturnTheRegisters :
    (pendingBytes 63).blen < 64 ∧ (0x4C#8).toNat % 4 = 0 ∧ 0x4C ≤ (0x4C#8).toNat ∧ (0xFC#8).toNat % 4 = 0 := by decide

theorem witness_CmdWriteStartsACommand : State.reset.busy = false ∧ liveHmac.busy = true := by decide

theorem witness_OperandRegistersHoldWhatIsWritten :
    State.reset.busy = false ∧ 0x18#8 ∈ [0x08#8, 0x0C#8, 0x10#8, 0x14#8, 0x18#8] ∧
    (∃ t, hostAccess (.writeReg 32 0x18#8 5#32) State.reset = .next t) ∧ ∃ t, exec .init State.reset = .next t :=
  ⟨by decide, by decide, ⟨_, rfl⟩, _, rfl⟩

theorem witness_DroppedWritesSetWdrop :
    (liveHmac.busy = true ∧ (0x18#8).toNat % 4 = 0 ∧ (0x08 ≤ (0x18#8).toNat ∧ (0x18#8).toNat ≤ 0x18) ∧
      (0x20 ≤ (0x3C#8).toNat ∧ (0x3C#8).toNat ≤ 0x3C)) ∧
    (liveHmac.ctx = .hmacInner ∧ (0x20#8).toNat % 4 = 0 ∧ 0x20 ≤ (0x20#8).toNat ∧ (0x20#8).toNat ≤ 0x3C) ∧
    (0x1000#32).getLsbD 12 = true ∧ (0xEFFF#32).getLsbD 12 = false ∧ nextIs (exec .init liveHmac) (fun _ => true) = true := by
  decide

theorem witness_ReadOnlyAndReservedIgnoreWrites :
    ((0x1C#8).toNat % 4 = 0 ∧ (0x1C#8).toNat = 0x1C) ∧ ((0x40#8).toNat % 4 = 0 ∧ 0x40 ≤ (0x40#8).toNat) ∧
    (0x4C#8).toNat % 4 = 0 ∧ 0x4C ≤ (0x4C#8).toNat := by decide

theorem witness_StreamCommandsErrAfterReset :
    nextIs (step (State.reset.withFetchWord 32 (encode .hmacFinish).toNat)) (fun _ => true) = true := by decide

theorem witness_ChainingValueAccess :
    (State.reset.ctx ≠ .hmacInner ∧ State.reset.busy = false) ∧ liveHmac.ctx = .hmacInner := by decide

theorem witness_LiveHmacIsInvisibleToTheHost : liveHmac.ctx = .hmacInner := by decide

theorem witness_RegisterAccessShape :
    (16 ≠ 32 ∨ (0x04#8).toNat % 4 ≠ 0) ∧ (32 ≠ 32 ∨ (0x05#8).toNat % 4 ≠ 0) ∧ (0xFC#8).toNat % 4 = 0 := by decide

theorem witness_HostDmemAccesses :
    (State.reset.faults = [] ∧ State.reset.cfg.dmemSize ≤ 0x10000) ∧
    (0xFFFF < State.reset.cfg.dmemSize ∧ State.reset.busy = false ∧ State.reset.mem.readByte 0xFFFF = none) ∧
    { liveHmac with busy := false }.mem.readByte 0xFFFF = some 0x62#8 ∧
    (liveHmac.faults = [] ∧ 0xFFFF < liveHmac.cfg.dmemSize ∧ liveHmac.busy = true) := by decide

/-- A reset turn with no command, an illegal word, and a pending command of each kind. -/
theorem witness_ResetInputEffect :
    (let s := { State.reset with sched := [.reset] }
     s.faults = [] ∧ nextTurn s = .reset ∧ s.busy = false ∧ decode s.cmdl = .error .opReserved) ∧
    (let s := { pending State.reset .update with sched := [.reset] }
     nextTurn s = .reset ∧ s.busy = true ∧ decode s.cmdl = .ok .update) ∧
    decode (pending State.reset .hmac).cmdl = .ok .hmac ∧ decode (pending State.reset (.b64Enc .url)).cmdl = .ok (.b64Enc .url) ∧
    (let s := { pending (cmdState .idle 0xFFFE [0x5A#8, 0x67#8] 5) (.b64Dec .std) with sched := [.reset] }
     nextTurn s = .reset ∧ s.busy = true ∧ decode s.cmdl = .ok (.b64Dec .std) ∧ InDmem s s.src.toNat s.len.toNat ∧
       s.mem.readBytes s.src.toNat s.len.toNat = some [0x5A#8, 0x67#8] ∧
       b64Decode .std [0x5A#8, 0x67#8] = .ok [0x66#8]) ∧
    (let s := pending { State.reset with src := 0xFFFF, len := 2 } (.b64Dec .url)
     s.busy = true ∧ decode s.cmdl = .ok (.b64Dec .url) ∧ ¬InDmem s s.src.toNat s.len.toNat) ∧
    (let s := pending (cmdState .idle 0xFFFF [0x51#8] 5) (.b64Dec .std)
     InDmem s s.src.toNat s.len.toNat ∧ s.mem.readBytes s.src.toNat s.len.toNat = some [0x51#8] ∧
       b64Decode .std [0x51#8] = .error .decodeLen) ∧
    (let s := pending { State.reset with src := 0xFFFD, len := 3 } (.b64Dec .std)
     InDmem s s.src.toNat s.len.toNat ∧ s.mem.readBytes s.src.toNat s.len.toNat = none) := by decide

/-- A live HMAC with a command pending meets the invariant, and the host, the engine and the reset input can each step
from it. -/
theorem witness_EveryStepKeepsTheInvariant :
    MachineInv liveHmac ∧ (∃ t, step liveHmac = .next t) ∧ (∃ t, step { liveHmac with sched := [] } = .next t) ∧
      ∃ t, step { liveHmac with sched := [.reset] } = .next t := ⟨by decide, ⟨_, rfl⟩, ⟨_, rfl⟩, _, rfl⟩

end Sys2Proof.Tests
end

section
/-! The machine's invariant (R45) through every operation of the model, and the step. -/

namespace Sys2Proof.Machine

/-! ### The fields of a completed command -/

@[simp] theorem completed_err (n : Nat) (bs : List Byte) (h : HashState) (kb : List Byte) (p : Phase) (s : State) :
    (completed n bs h kb p s).err = false := rfl
@[simp] theorem completed_ecode (n : Nat) (bs : List Byte) (h : HashState) (kb : List Byte) (p : Phase) (s : State) :
    (completed n bs h kb p s).ecode = 0 := rfl
@[simp] theorem completed_ctx (n : Nat) (bs : List Byte) (h : HashState) (kb : List Byte) (p : Phase) (s : State) :
    (completed n bs h kb p s).ctx = p := rfl
@[simp] theorem completed_outlen (n : Nat) (bs : List Byte) (h : HashState) (kb : List Byte) (p : Phase) (s : State) :
    (completed n bs h kb p s).outlen = BitVec.ofNat 32 n := rfl
@[simp] theorem completed_hash (n : Nat) (bs : List Byte) (h : HashState) (kb : List Byte) (p : Phase) (s : State) :
    (completed n bs h kb p s).hash = h := rfl
@[simp] theorem completed_kb (n : Nat) (bs : List Byte) (h : HashState) (kb : List Byte) (p : Phase) (s : State) :
    (completed n bs h kb p s).kb = kb := rfl
@[simp] theorem completed_mem (n : Nat) (bs : List Byte) (h : HashState) (kb : List Byte) (p : Phase) (s : State) :
    (completed n bs h kb p s).mem = dstWritten s bs := rfl
@[simp] theorem completed_cfg (n : Nat) (bs : List Byte) (h : HashState) (kb : List Byte) (p : Phase) (s : State) :
    (completed n bs h kb p s).cfg = s.cfg := rfl

/-! ### Commands -/

/-- R272: every error has a code of its own, 1 to 7. -/
theorem errorCode_range (e : ErrorCode) : e.code ≠ 0 ∧ e.code.toNat ≤ 7 := by
  cases e <;> decide

/-- An error leaves the memory and the context as they were, and a status consistent with ERR = 1 (R274). -/
theorem raiseError_inv {s : State} (e : ErrorCode) (hs : MachineInv s) : MachineInv (raiseError e s) := by
  obtain ⟨hcfg, hmem, hctx, -⟩ := hs
  obtain ⟨hne, hle⟩ := errorCode_range e
  have hstatus : StatusInv (raiseError e s) := by simpa [StatusInv] using ⟨hne, hle⟩
  exact ⟨hcfg, hmem, hctx, hstatus⟩

/-- Bytes written at a destination inside DMEM keep the memory's form and its bound (R63, R64). -/
theorem dstWritten_memoryInv {s : State} {bs : List Byte} (hs : MemoryInv s) (hd : dstValid s bs.length = true) :
    MemoryInv { s with mem := dstWritten s bs } := by
  obtain ⟨hwf, hbound⟩ := hs
  have hrange := (validRange_true _ _ _).mp hd
  refine ⟨dstWritten_wf bs hwf, fun c hc => ?_⟩
  rcases mem_writeBytes hc with hin | hold
  · show c.1 < s.cfg.dmemSize
    omega
  · exact hbound c hold

/-- A command that stores at a destination inside DMEM reports no more bytes than DMEM has (R27, R273). -/
theorem completed_statusInv {s : State} {n : Nat} (hd : dstValid s n = true)
    (bs : List Byte) (h : HashState) (kb : List Byte) (p : Phase) : StatusInv (completed n bs h kb p s) := by
  have hrange := (validRange_true _ _ _).mp hd
  refine ⟨by simp, by simp, by simp, ?_⟩
  rw [completed_outlen, completed_cfg, BitVec.toNat_ofNat]
  omega

/-- A fresh context that absorbed the key block has fewer than 64 bytes pending (R205). -/
theorem innerStart_buf_lt (kb : List Byte) : (innerStart kb).buf.length < 64 := absorb_buf_lt _ _

/-- The context every command leaves when it completes meets R45. -/
theorem contextAfter_inv {i : Instr} {s : State} {bs : List Byte} {h : HashState} {kb : List Byte} {p : Phase}
    (hs : ContextInv s) (hc : ContextAfter i s bs h kb p) (n : Nat) : ContextInv (completed n bs h kb p s) := by
  cases i with
  | init =>
    obtain ⟨-, rfl, rfl, rfl⟩ := hc
    simp [ContextInv, HashState.fresh]
  | update =>
    obtain ⟨hp, -, ⟨d, -, rfl⟩, rfl, rfl⟩ := hc
    obtain ⟨-, hlen, hkb, -, -⟩ := hs
    simpa [ContextInv, hp, absorb_buf_lt, hlen] using hkb
  | finish =>
    obtain ⟨hp, -, rfl, rfl, rfl⟩ := hc
    obtain ⟨-, hlen, hkb, -, -⟩ := hs
    simpa [ContextInv, hlen] using hkb (by simp [hp])
  | digest =>
    obtain ⟨m, -, -, rfl, rfl, rfl⟩ := hc
    simp [ContextInv]
  | compress =>
    obtain ⟨-, -, -, ⟨d, -, rfl⟩, rfl, rfl⟩ := hc
    exact hs
  | hmacInit =>
    obtain ⟨k, -, -, rfl, rfl, rfl⟩ := hc
    simp [ContextInv, innerStart_buf_lt]
  | hmacUpdate =>
    obtain ⟨hp, -, ⟨d, -, rfl⟩, rfl, rfl⟩ := hc
    obtain ⟨-, hlen, -, -, -⟩ := hs
    simp [ContextInv, hp, absorb_buf_lt, hlen]
  | hmacFinish =>
    obtain ⟨-, -, rfl, rfl, rfl⟩ := hc
    simp [ContextInv, HashState.zero]
  | hmac =>
    obtain ⟨k, m, -, -, -, rfl, rfl, rfl⟩ := hc
    simp [ContextInv, HashState.zero]
  | b64Enc alph =>
    obtain ⟨-, -, rfl, rfl, rfl⟩ := hc
    exact hs
  | b64Dec alph =>
    obtain ⟨-, -, rfl, rfl, rfl⟩ := hc
    exact hs

/-- A command that answers keeps the invariant: it raised an error or completed. -/
theorem exec_inv {i : Instr} {s t : State} (hs : MachineInv s) (hx : exec i s = .next t) : MachineInv t := by
  rcases exec_next hx with ⟨e, rfl⟩ | ⟨n, bs, h, kb, p, rfl, rfl, hd, hc⟩
  · exact raiseError_inv e hs
  · obtain ⟨hcfg, hmem, hctx, -⟩ := hs
    exact ⟨hcfg, dstWritten_memoryInv hmem hd, contextAfter_inv hctx hc _, completed_statusInv hd _ _ _ _⟩

/-! ### The host and the reset input -/

/-- The invariant speaks of none of the registers a host write changes, but of V alone in the hash context. -/
theorem writeRegister_inv {s : State} (hs : MachineInv s) (r : Reg) (w : Word) : MachineInv (writeRegister r w s) := by
  rcases writeRegister_cases r w s with h | h | h | ⟨_, _, _, _, _, -, h⟩ | ⟨_, -, -, h⟩ | ⟨-, h⟩
  all_goals rw [h]; exact hs

/-- A host access that answers keeps the invariant: only a DMEM write touches what the invariant bounds. -/
theorem hostAccess_inv {a : HostStep} {s t : State} (hs : MachineInv s) (hx : hostAccess a s = .next t) :
    MachineInv t := by
  rcases hostAccess_next hx with ⟨_, _, rfl⟩ | ⟨r, w, rfl⟩ | ⟨x, b, hlt, -, rfl⟩ | ⟨_, rfl⟩
  · exact hs
  · exact writeRegister_inv hs r w
  · obtain ⟨hcfg, ⟨hwf, hbound⟩, hctx, hstatus⟩ := hs
    have hmem : MemoryInv { s with mem := s.mem.writeByte x b } := by
      refine ⟨writeByte_wf x b hwf, fun c hc => ?_⟩
      rcases mem_writeByte hc with rfl | hold
      · exact hlt
      · exact hbound c hold
    exact ⟨hcfg, hmem, hctx, hstatus⟩
  · exact hs

/-- The reset input leaves the context and status of R44, and no byte in DMEM that was not there (R301). -/
theorem resetTurn_inv {s : State} (hs : MachineInv s) : MachineInv (resetTurn s) := by
  obtain ⟨hcfg, ⟨hwf, hbound⟩, -, -⟩ := hs
  have hmem : MemoryInv (resetTurn s) := ⟨memAfterReset_wf hwf, fun c hc => hbound c (mem_memAfterReset hc)⟩
  have hctx : ContextInv (resetTurn s) := by simp [ContextInv, HashState.zero, zeros]
  have hstatus : StatusInv (resetTurn s) := by simp [StatusInv]
  exact ⟨hcfg, hmem, hctx, hstatus⟩

end Sys2Proof.Machine

section
open Sys2Proof Sys2Proof.Machine

/-- Settles O60, by the cases of a step: the turn taken and a recorded fault are outside the invariant, and each of the
host's access, the command and the reset input keeps it. -/
theorem everyStepKeepsTheInvariant : Obligations.EveryStepKeepsTheInvariant := by
  intro s t hs hx
  have hturn : MachineInv (takeTurn s) := hs
  obtain ⟨-, host | engine | reset⟩ := step_next hx
  · obtain ⟨-, ⟨-, rfl⟩ | ⟨a, rest, -, ha⟩⟩ := host
    · exact hturn
    · exact hostAccess_inv (s := { takeTurn s with host := rest }) hturn ha
  · obtain ⟨-, ⟨-, rfl⟩ | ⟨e, -, -, rfl⟩ | ⟨i, -, -, hi | ⟨f, -, rfl⟩⟩⟩ := engine
    · exact hturn
    · exact raiseError_inv .illegal hturn
    · exact exec_inv hturn hi
    · exact hturn
  · obtain ⟨-, rfl⟩ := reset
    exact resetTurn_inv hturn
end
end

section
/-! The register window and STATUS: what a host access to a register does, by the register (R21 to R31). -/

namespace Sys2Proof.Machine

/-! ### Accesses by register -/

/-- A 32-bit write at a register's offset is that register's write (R21). -/
@[simp] theorem hostAccess_writeReg (r : Reg) (w : Word) (s : State) :
    hostAccess (.writeReg 32 (offsetOf r) w) s = .next (writeRegister r w s) := by
  simp [hostAccess, regAccessOk_offsetOf, writeOffset, regAt_offsetOf]

/-- A 32-bit read at a register's offset returns that register's value and changes nothing else (R21, R71). -/
@[simp] theorem hostAccess_readReg (r : Reg) (s : State) :
    hostAccess (.readReg 32 (offsetOf r)) s = .next { s with rdata := some (readRegister r s) } := by
  simp [hostAccess, regAccessOk_offsetOf, readOffset, regAt_offsetOf]

@[simp] theorem unlessBusy_idle {s : State} (hb : s.busy = false) (s' : State) : unlessBusy s s' = s' := by
  simp [unlessBusy, hb]

@[simp] theorem unlessBusy_busy {s : State} (hb : s.busy = true) (s' : State) : unlessBusy s s' = dropWrite s := by
  simp [unlessBusy, hb]

/-! ### CMD and STATUS -/

theorem writeRegister_cmd_idle {s : State} (hb : s.busy = false) (w : Word) :
    writeRegister .cmd w s = { s with cmdl := w, busy := true } := unlessBusy_idle hb _

theorem writeRegister_cmd_busy {s : State} (hb : s.busy = true) (w : Word) :
    writeRegister .cmd w s = dropWrite s := unlessBusy_busy hb _

theorem writeRegister_status_set {w : Word} (hw : w.getLsbD 12 = true) (s : State) :
    writeRegister .status w s = { s with wdrop := false } := if_pos hw

theorem writeRegister_status_clear {w : Word} (hw : w.getLsbD 12 = false) (s : State) :
    writeRegister .status w s = s := if_neg (Bool.eq_false_iff.mp hw)

/-- R25 in one value: bit 12 of the word written clears WDROP, and nothing else changes. -/
theorem writeRegister_status (w : Word) (s : State) :
    writeRegister .status w s = { s with wdrop := s.wdrop && !w.getLsbD 12 } := by
  cases hw : w.getLsbD 12
  · rw [writeRegister_status_clear hw, Bool.not_false, Bool.and_true]
  · rw [writeRegister_status_set hw, Bool.not_true, Bool.and_false]

/-! ### The operand registers -/

/-- The operand registers (R26). -/
def operandRegs : List Reg := [.src, .len, .dst, .kadr, .klen]

theorem writeRegister_operand_busy {r : Reg} (hr : r ∈ operandRegs) {s : State} (hb : s.busy = true) (w : Word) :
    writeRegister r w s = dropWrite s := by
  simp only [operandRegs, List.mem_cons, List.not_mem_nil, or_false] at hr
  rcases hr with rfl | rfl | rfl | rfl | rfl
  all_goals exact unlessBusy_busy hb _

/-- An operand register written while idle reads back the value written (R26). -/
theorem readRegister_writeRegister_operand {r : Reg} (hr : r ∈ operandRegs) {s : State} (hb : s.busy = false)
    (w : Word) : readRegister r (writeRegister r w s) = w := by
  simp only [operandRegs, List.mem_cons, List.not_mem_nil, or_false] at hr
  rcases hr with rfl | rfl | rfl | rfl | rfl
  all_goals simp [writeRegister, hb, readRegister]

/-! ### The chaining value -/

theorem readRegister_v {s : State} (hc : s.ctx ≠ .hmacInner) (i : Fin 8) :
    readRegister (.v i) s = chainWord s.hash.v i := if_neg hc

theorem readRegister_v_live {s : State} (hc : s.ctx = .hmacInner) (i : Fin 8) :
    readRegister (.v i) s = 0 := if_pos hc

theorem writeRegister_v_idle {s : State} (hc : s.ctx ≠ .hmacInner) (hb : s.busy = false) (i : Fin 8) (w : Word) :
    writeRegister (.v i) w s = { s with hash := { s.hash with v := setChainWord s.hash.v i w } } :=
  (if_neg hc).trans (unlessBusy_idle hb _)

theorem writeRegister_v_live {s : State} (hc : s.ctx = .hmacInner) (i : Fin 8) (w : Word) :
    writeRegister (.v i) w s = dropWrite s := if_pos hc

theorem writeRegister_v_busy {s : State} (hb : s.busy = true) (i : Fin 8) (w : Word) :
    writeRegister (.v i) w s = dropWrite s := by
  by_cases hc : s.ctx = .hmacInner
  · exact writeRegister_v_live hc i w
  · exact (if_neg hc).trans (unlessBusy_busy hb _)

/-! ### The offsets of the window (R21) -/

/-- The aligned offsets from 0x08 to 0x18 are those of the operand registers. -/
theorem offset_operand : ∀ off : BitVec 8, off.toNat % 4 = 0 → 0x08 ≤ off.toNat ∧ off.toNat ≤ 0x18 →
    off ∈ operandRegs.map offsetOf := by decide

/-- The aligned offsets from 0x20 to 0x3C are those of V0..V7. -/
theorem offset_v {off : BitVec 8} (h4 : off.toNat % 4 = 0) (hl : 0x20 ≤ off.toNat) (hu : off.toNat ≤ 0x3C) :
    ∃ i : Fin 8, off = offsetOf (.v i) := by
  refine ⟨⟨(off.toNat - 0x20) / 4, by omega⟩, BitVec.eq_of_toNat_eq ?_⟩
  simp only [offsetOf, BitVec.toNat_ofNat]
  omega

/-- From 0x4C on every offset is reserved. -/
theorem regAt_reserved : ∀ off : BitVec 8, 0x4C ≤ off.toNat → regAt off = none := by decide

/-- The aligned offsets 0x1C and from 0x40 on are those of the read-only registers and the reserved ones. -/
theorem regAt_readOnly : ∀ off : BitVec 8, off.toNat % 4 = 0 → off.toNat = 0x1C ∨ 0x40 ≤ off.toNat →
    regAt off ∈ [some .outlen, some .nblkLo, some .nblkHi, some .blen, none] := by decide

/-- A write to a read-only register or at a reserved offset is ignored (R31). -/
theorem writeOffset_readOnly {off : BitVec 8} (h4 : off.toNat % 4 = 0) (ho : off.toNat = 0x1C ∨ 0x40 ≤ off.toNat)
    (w : Word) (s : State) : writeOffset off w s = s := by
  have hr := regAt_readOnly off h4 ho
  simp only [List.mem_cons, List.not_mem_nil, or_false] at hr
  unfold writeOffset
  rcases hr with h | h | h | h | h
  all_goals simp only [h, writeRegister]

/-! ### What a command leaves of the host's registers -/

/-- No command writes an operand register (R26). -/
theorem exec_operands {i : Instr} {s t : State} (hx : exec i s = .next t) :
    t.src = s.src ∧ t.len = s.len ∧ t.dst = s.dst ∧ t.kadr = s.kadr ∧ t.klen = s.klen := by
  rcases exec_next hx with ⟨_, rfl⟩ | ⟨_, _, _, _, _, rfl, -⟩
  all_goals exact ⟨rfl, rfl, rfl, rfl, rfl⟩

/-- No command sets or clears WDROP (R25). -/
theorem exec_wdrop {i : Instr} {s t : State} (hx : exec i s = .next t) : t.wdrop = s.wdrop := by
  rcases exec_next hx with ⟨_, rfl⟩ | ⟨_, _, _, _, _, rfl, -⟩
  all_goals rfl

/-! ### The STATUS word, field by field from bit 0 up (R23) -/

theorem flagBit_getLsbD_zero (b : Bool) : (flagBit b).getLsbD 0 = b := by cases b <;> rfl

theorem statusWord_busy (s : State) : (statusWord s).getLsbD 0 = s.busy := by
  simp only [statusWord, BitVec.getLsbD_append, Nat.reduceLT, if_true, flagBit_getLsbD_zero]

theorem statusWord_err (s : State) : (statusWord s).getLsbD 1 = s.err := by
  simp only [statusWord, BitVec.getLsbD_append, Nat.reduceLT, Nat.reduceSub, if_true, if_false, flagBit_getLsbD_zero]

theorem statusWord_wdrop (s : State) : (statusWord s).getLsbD 12 = s.wdrop := by
  simp only [statusWord, BitVec.getLsbD_append, Nat.reduceLT, Nat.reduceSub, if_true, if_false, flagBit_getLsbD_zero]

theorem statusWord_bit11 (s : State) : (statusWord s).getLsbD 11 = false := by
  simp only [statusWord, BitVec.getLsbD_append, Nat.reduceLT, Nat.reduceSub, if_true, if_false, BitVec.getLsbD_zero]

theorem statusWord_bits3to2 (s : State) : (statusWord s).extractLsb' 2 2 = 0#2 := by
  unfold statusWord
  iterate 2 rw [BitVec.extractLsb'_append_eq_of_le (by decide)]
  rw [BitVec.extractLsb'_append_eq_right]

theorem statusWord_ecode (s : State) : (statusWord s).extractLsb' 4 4 = s.ecode := by
  unfold statusWord
  iterate 3 rw [BitVec.extractLsb'_append_eq_of_le (by decide)]
  rw [BitVec.extractLsb'_append_eq_right]

theorem statusWord_ctx (s : State) : (statusWord s).extractLsb' 8 3 = phaseCode s.ctx := by
  unfold statusWord
  iterate 4 rw [BitVec.extractLsb'_append_eq_of_le (by decide)]
  rw [BitVec.extractLsb'_append_eq_right]

theorem statusWord_bits31to13 (s : State) : (statusWord s).extractLsb' 13 19 = 0#19 := by
  unfold statusWord
  iterate 7 rw [BitVec.extractLsb'_append_eq_of_le (by decide)]
  rw [BitVec.extractLsb'_eq_self]

end Sys2Proof.Machine

section
open Sys2Proof Sys2Proof.Machine

/-- Settles O49: the write by the register's rule, the read back by `readRegister_writeRegister_operand`, the commands by
`exec_operands`. -/
theorem operandRegistersHoldWhatIsWritten : Obligations.OperandRegistersHoldWhatIsWritten := by
  refine ⟨fun s w hb => ?_, fun off s t w hb hoff hx => ?_, fun i s t hx => exec_operands hx⟩
  · have write (r : Reg) (s' : State) (hr : writeRegister r w s = unlessBusy s s') :
        hostAccess (.writeReg 32 (offsetOf r) w) s = .next s' := by
      rw [hostAccess_writeReg, hr, unlessBusy_idle hb]
    exact ⟨write .src _ rfl, write .len _ rfl, write .dst _ rfl, write .kadr _ rfl, write .klen _ rfl⟩
  · obtain ⟨r, hr, rfl⟩ := List.mem_map.mp (show off ∈ operandRegs.map offsetOf from hoff)
    rw [hostAccess_writeReg] at hx
    cases hx
    rw [hostAccess_readReg, readRegister_writeRegister_operand hr hb]

/-- Settles O50: each offset is that of its register, whose write is dropped. -/
theorem droppedWritesSetWdrop : Obligations.DroppedWritesSetWdrop := by
  refine ⟨fun off s w hb h4 hoff => ?_, fun off s w hc h4 hl hu => ?_, fun s w hw => ?_, fun s w hw => ?_,
    fun i s t hx => exec_wdrop hx⟩
  · have drop (r : Reg) (hr : writeRegister r w s = dropWrite s) :
        hostAccess (.writeReg 32 (offsetOf r) w) s = .next (dropWrite s) := by rw [hostAccess_writeReg, hr]
    rcases hoff with h0 | hop | ⟨hl, hu⟩
    · obtain rfl : off = offsetOf .cmd := BitVec.eq_of_toNat_eq h0
      exact drop .cmd (writeRegister_cmd_busy hb w)
    · obtain ⟨r, hr, rfl⟩ := List.mem_map.mp (offset_operand off h4 hop)
      exact drop r (writeRegister_operand_busy hr hb w)
    · obtain ⟨i, rfl⟩ := offset_v h4 hl hu
      exact drop (.v i) (writeRegister_v_busy hb i w)
  · obtain ⟨i, rfl⟩ := offset_v h4 hl hu
    rw [hostAccess_writeReg, writeRegister_v_live hc]
    rfl
  · exact (hostAccess_writeReg .status w s).trans (congrArg _ (writeRegister_status_set hw s))
  · exact (hostAccess_writeReg .status w s).trans (congrArg _ (writeRegister_status_clear hw s))

/-- Settles O52: the rules of V0..V7, outside and inside a live HMAC. -/
theorem chainingValueAccess : Obligations.ChainingValueAccess := by
  intro s i j w
  refine ⟨fun hc => ?_, fun hc hb => ⟨setChainWord s.hash.v i w, ?_, chainWord_setChainWord _ i j w⟩,
    fun hc => ⟨?_, ?_⟩, rfl, rfl⟩
  · rw [hostAccess_readReg, readRegister_v hc]
  · rw [hostAccess_writeReg, writeRegister_v_idle hc hb]
  · rw [hostAccess_readReg, readRegister_v_live hc]
  · rw [hostAccess_writeReg, writeRegister_v_live hc]
    rfl

/-- Settles O47, field by field. -/
theorem statusWordHasTheFields : Obligations.StatusWordHasTheFields := by
  intro s
  refine ⟨statusWord_busy s, statusWord_err s, statusWord_bits3to2 s, statusWord_ecode s, ?_, statusWord_bit11 s,
    statusWord_wdrop s, statusWord_bits31to13 s⟩
  rw [statusWord_ctx]
  cases s.ctx <;> rfl

/-- Settles O48: the two cases of a CMD write, and the read. -/
theorem cmdWriteStartsACommand : Obligations.CmdWriteStartsACommand := by
  intro s c
  have write := hostAccess_writeReg .cmd c s
  refine ⟨fun hb => ?_, fun hb => ?_, hostAccess_readReg .cmd s⟩
  · rwa [writeRegister_cmd_idle hb] at write
  · rwa [writeRegister_cmd_busy hb] at write

/-- Settles O51: at a read-only or reserved offset nothing is written, and STATUS has no writable bit but WDROP. -/
theorem readOnlyAndReservedIgnoreWrites : Obligations.ReadOnlyAndReservedIgnoreWrites := by
  refine ⟨fun off s w h4 ho => ?_, fun s w => ?_⟩
  · have hok : regAccessOk 32 off = true := by simp [regAccessOk, h4]
    refine ⟨?_, fun hres => ?_⟩
    · simp [hostAccess, hok, writeOffset_readOnly h4 ho]
    · simp [hostAccess, hok, readOffset, regAt_reserved off hres]
  · rw [← writeRegister_status]
    exact hostAccess_writeReg .status w s

/-- Settles O56: every field is the literal of `State.reset`, and an empty DMEM lists no byte. -/
theorem resetValues : Obligations.ResetValues := by
  have hstatus : statusWord State.reset = 0 := by decide
  exact ⟨rfl, rfl, rfl, rfl, rfl, rfl, hstatus, rfl, rfl, rfl, rfl, rfl, rfl, rfl, rfl, rfl, rfl, rfl, readByte_nil, rfl⟩

end
end

section
/-! What a command stores in DMEM and reads from it (R62, R63, R95), and the shape of a register access (R65). -/

namespace Sys2Proof.Machine

/-! ### The shape of a register access -/

theorem regAccessOk_iff (width : Nat) (off : BitVec 8) :
    regAccessOk width off = true ↔ width = 32 ∧ off.toNat % 4 = 0 := by
  simp [regAccessOk]

/-! ### Reading: MemRead answers what the bytes hold, and no answer means an unwritten byte -/

/-- `MemRead` (R62) in both directions: the bytes of the range determine its answer. -/
theorem readBytes_eq_some_iff (m : Memory) (a n : Nat) (bs : List Byte) :
    m.readBytes a n = some bs ↔ (bs.length = n ∧ ∀ k, k < n → m.readByte (a + k) = bs[k]?) := by
  refine ⟨readBytes_eq_some, fun ⟨hlen, hbytes⟩ => ?_⟩
  obtain ⟨cs, hcs⟩ := readBytes_isSome (m := m) (a := a) (n := n) fun k hk => by
    rw [hbytes k hk, List.getElem?_eq_getElem (by omega)]
    rfl
  obtain ⟨hlen', hbytes'⟩ := readBytes_eq_some hcs
  have hsame : cs = bs := List.ext_getElem? fun k => by
    by_cases hk : k < n
    · rw [← hbytes' k hk, hbytes k hk]
    · rw [List.getElem?_eq_none (by omega), List.getElem?_eq_none (by omega)]
  rw [hcs, hsame]

theorem holdsUnwritten_of_readBytes_none {s : State} {a n : Nat} (h : s.mem.readBytes a n = none) :
    HoldsUnwritten s a n := by
  obtain ⟨k, hk, hx⟩ := readBytes_none h
  exact ⟨a + k, by omega, by omega, hx⟩

/-! ### Storing: the DMEM a command leaves -/

/-- A destination inside a DMEM of legal size is short enough for OUTLEN to count its bytes exactly (R9, R27). -/
theorem completed_outlen_toNat {s : State} {n : Nat} (hcfg : s.cfg.Legal) (hd : dstValid s n = true)
    (bs : List Byte) (h : HashState) (kb : List Byte) (p : Phase) : (completed n bs h kb p s).outlen.toNat = n := by
  have hrange := (validRange_true _ _ _).mp hd
  obtain ⟨-, hsize⟩ := hcfg
  rw [completed_outlen, BitVec.toNat_ofNat]
  omega

/-- A command that answers stores OUTLEN bytes at DST; an error stores none, as its OUTLEN is 0 (R273, R274). -/
theorem exec_mem {i : Instr} {s t : State} (hcfg : s.cfg.Legal) (hx : exec i s = .next t) :
    ∃ bs : List Byte, bs.length = t.outlen.toNat ∧ t.mem = s.mem.writeBytes s.dst.toNat bs := by
  rcases exec_next hx with ⟨e, rfl⟩ | ⟨n, bs, h, kb, p, rfl, hlen, hd, -⟩
  · exact ⟨[], rfl, rfl⟩
  · exact ⟨bs, hlen.trans (completed_outlen_toNat hcfg hd bs h kb p).symm, rfl⟩

/-- The commands with no destination range (R95) complete with nothing to store. -/
theorem contextAfter_storesNothing {i : Instr} {s : State} {bs : List Byte} {h : HashState} {kb : List Byte} {p : Phase}
    (hi : i = .init ∨ i = .update ∨ i = .compress ∨ i = .hmacInit ∨ i = .hmacUpdate)
    (hc : ContextAfter i s bs h kb p) : bs = [] := by
  rcases hi with rfl | rfl | rfl | rfl | rfl
  · obtain ⟨hbs, -⟩ := hc; exact hbs
  · obtain ⟨-, hbs, -⟩ := hc; exact hbs
  · obtain ⟨-, -, hbs, -⟩ := hc; exact hbs
  · obtain ⟨_, -, hbs, -⟩ := hc; exact hbs
  · obtain ⟨-, hbs, -⟩ := hc; exact hbs

/-- The commands with no destination range leave OUTLEN = 0 and DMEM as it was, on success and on error. -/
theorem exec_storesNothing {i : Instr} {s t : State}
    (hi : i = .init ∨ i = .update ∨ i = .compress ∨ i = .hmacInit ∨ i = .hmacUpdate) (hx : exec i s = .next t) :
    t.outlen = 0 ∧ t.mem = s.mem := by
  rcases exec_next hx with ⟨e, rfl⟩ | ⟨n, bs, h, kb, p, rfl, rfl, -, hc⟩
  · exact ⟨rfl, rfl⟩
  · obtain rfl := contextAfter_storesNothing hi hc
    exact ⟨rfl, rfl⟩

/-! ### Stopping: a fault rests on an unwritten byte of a range the command reads -/

theorem exec_fault {i : Instr} {s : State} {f : Fault} (hx : exec i s = .fault f) :
    f = .readUnwritten ∧ ∃ r, r ∈ rangesRead i s ∧ HoldsUnwritten s r.1 r.2 := by
  rcases exec_cases i s with ⟨e, he⟩ | ⟨hf, r, hr, hnone⟩ | ⟨n, bs, h, kb, p, he, -⟩
  · rw [he] at hx; cases hx
  · rw [hf] at hx; cases hx
    exact ⟨rfl, r, hr, holdsUnwritten_of_readBytes_none hnone⟩
  · rw [he] at hx; cases hx

theorem exec_ne_refused (i : Instr) (s : State) (r : Refusal) : exec i s ≠ .refused r := by
  intro hx
  rcases exec_cases i s with ⟨e, he⟩ | ⟨hf, -⟩ | ⟨n, bs, h, kb, p, he, -⟩
  · rw [he] at hx; cases hx
  · rw [hf] at hx; cases hx
  · rw [he] at hx; cases hx

theorem srcValid_of_inDmem {s : State} (h : InDmem s s.src.toNat s.len.toNat) : srcValid s = true :=
  (validRange_true _ _ _).mpr h

theorem keyValid_of_inDmem {s : State} (h : InDmem s s.kadr.toNat s.klen.toNat) : keyValid s = true :=
  (validRange_true _ _ _).mpr h

theorem dstValid_of_inDmem {s : State} {n : Nat} (h : InDmem s s.dst.toNat n) : dstValid s n = true :=
  (validRange_true _ _ _).mpr h

/-- A command that goes on with its source bytes stops at an unwritten one (R62). -/
theorem withBytes_src_unwritten {s : State} (h : HoldsUnwritten s s.src.toNat s.len.toNat)
    (k : List Byte → Host.Outcome State Fault Refusal) : withBytes (srcBytes s) k = .fault .readUnwritten :=
  withBytes_unwritten h k

/-- A command that goes on with its key bytes stops at an unwritten one (R62). -/
theorem withBytes_key_unwritten {s : State} (h : HoldsUnwritten s s.kadr.toNat s.klen.toNat)
    (k : List Byte → Host.Outcome State Fault Refusal) : withBytes (keyBytes s) k = .fault .readUnwritten :=
  withBytes_unwritten h k

theorem execUpdate_unwritten {s : State} (hc : s.ctx = .hashActive) (hs : InDmem s s.src.toNat s.len.toNat)
    (hu : HoldsUnwritten s s.src.toNat s.len.toNat) : execUpdate s = .fault .readUnwritten := by
  simp [execUpdate, hc, srcValid_of_inDmem hs, withBytes_src_unwritten hu]

theorem execDigest_unwritten {s : State} (hs : InDmem s s.src.toNat s.len.toNat) (hd : InDmem s s.dst.toNat 32)
    (hu : HoldsUnwritten s s.src.toNat s.len.toNat) : execDigest s = .fault .readUnwritten := by
  simp [execDigest, srcValid_of_inDmem hs, dstValid_of_inDmem hd, withBytes_src_unwritten hu]

theorem execCompress_unwritten {s : State} (hc : s.ctx ≠ .hmacInner) (hl : s.len.toNat % 64 = 0)
    (hs : InDmem s s.src.toNat s.len.toNat) (hu : HoldsUnwritten s s.src.toNat s.len.toNat) :
    execCompress s = .fault .readUnwritten := by
  simp [execCompress, hc, hl, srcValid_of_inDmem hs, withBytes_src_unwritten hu]

theorem execHmacInit_unwritten {s : State} (hk : InDmem s s.kadr.toNat s.klen.toNat)
    (hu : HoldsUnwritten s s.kadr.toNat s.klen.toNat) : execHmacInit s = .fault .readUnwritten := by
  simp [execHmacInit, keyValid_of_inDmem hk, withBytes_key_unwritten hu]

theorem execHmacUpdate_unwritten {s : State} (hc : s.ctx = .hmacInner) (hs : InDmem s s.src.toNat s.len.toNat)
    (hu : HoldsUnwritten s s.src.toNat s.len.toNat) : execHmacUpdate s = .fault .readUnwritten := by
  simp [execHmacUpdate, hc, srcValid_of_inDmem hs, withBytes_src_unwritten hu]

/-- HMAC reads its key first; with the whole key written, an unwritten source byte stops it just the same. -/
theorem execHmac_unwritten {s : State} (hk : InDmem s s.kadr.toNat s.klen.toNat)
    (hs : InDmem s s.src.toNat s.len.toNat) (hd : InDmem s s.dst.toNat 32)
    (hu : HoldsUnwritten s s.kadr.toNat s.klen.toNat ∨ HoldsUnwritten s s.src.toNat s.len.toNat) :
    execHmac s = .fault .readUnwritten := by
  simp only [execHmac, keyValid_of_inDmem hk, srcValid_of_inDmem hs, dstValid_of_inDmem hd, Bool.true_eq_false, if_false]
  rcases hu with hkey | hsrc
  · exact withBytes_key_unwritten hkey _
  · rcases withBytes_cases (keyBytes s) _ with ⟨-, hstop⟩ | ⟨k, -, hgo⟩
    · exact hstop
    · rw [hgo]
      exact withBytes_src_unwritten hsrc _

theorem execB64Enc_unwritten (alph : Alphabet) {s : State} (hs : InDmem s s.src.toNat s.len.toNat)
    (hu : HoldsUnwritten s s.src.toNat s.len.toNat) : execB64Enc alph s = .fault .readUnwritten := by
  simp [execB64Enc, srcValid_of_inDmem hs, withBytes_src_unwritten hu]

theorem execB64Dec_unwritten (alph : Alphabet) {s : State} (hs : InDmem s s.src.toNat s.len.toNat)
    (hu : HoldsUnwritten s s.src.toNat s.len.toNat) : execB64Dec alph s = .fault .readUnwritten := by
  simp [execB64Dec, srcValid_of_inDmem hs, withBytes_src_unwritten hu]

end Sys2Proof.Machine

section
open Sys2Proof Sys2Proof.Machine

/-- Settles O23: the frame of `exec_mem` read byte by byte with `readByte_writeBytes`, and the laws of MemWrite and
MemRead themselves. -/
theorem commandsFrameMemory : Obligations.CommandsFrameMemory := by
  refine ⟨fun i s t hcfg hx => ?_, fun i s t hi hx => exec_storesNothing hi hx, readByte_writeBytes,
    readBytes_eq_some_iff⟩
  obtain ⟨bs, hlen, hmem⟩ := exec_mem hcfg hx
  refine ⟨⟨bs, hlen, hmem⟩, fun a ha => ?_, fun a hlo hhi => ?_⟩
  · rw [hmem, readByte_writeBytes_outside (by omega)]
  · rw [hmem, readByte_writeBytes, if_pos (by omega), List.getElem?_eq_getElem (by omega)]
    rfl

/-- Settles O26: `exec_fault` and `exec_ne_refused` for every command, and command by command the stop at the read. -/
theorem commandsStopOnlyOnUnwrittenBytes : Obligations.CommandsStopOnlyOnUnwrittenBytes :=
  ⟨fun i s => ⟨fun _ => exec_fault, exec_ne_refused i s⟩,
    fun _ => ⟨execUpdate_unwritten, execDigest_unwritten, execCompress_unwritten, execHmacInit_unwritten,
      execHmacUpdate_unwritten, execHmac_unwritten,
      fun alph hs hu => ⟨execB64Enc_unwritten alph hs hu, execB64Dec_unwritten alph hs hu⟩⟩⟩

/-- Settles O54: `regAccessOk_iff` decides which branch of the access is taken. -/
theorem registerAccessShape : Obligations.RegisterAccessShape := by
  intro s width off w
  refine ⟨fun hbad => ?_, fun hw h4 => ?_⟩
  · have hno : ¬ regAccessOk width off = true := by rw [regAccessOk_iff]; omega
    exact ⟨if_neg hno, if_neg hno⟩
  · have hok : regAccessOk width off = true := (regAccessOk_iff width off).mpr ⟨hw, h4⟩
    exact ⟨⟨_, if_pos hok⟩, _, if_pos hok⟩

end
end

section
/-! What the decoder's answer says of a word (R96): a command whose fields the word has, or an illegal word; and the engine's
turn with a pending word that is illegal (R97). -/

namespace Sys2Proof

/-! ### Fields and words -/

/-- A word is its three fields put side by side (R90). -/
theorem wordOf_fieldsOf (c : Word) : wordOf (fieldsOf c) = c := by
  have hlow : c.extractLsb' 4 1 ++ c.extractLsb' 0 4 = c.extractLsb' 0 5 :=
    BitVec.extractLsb'_append_extractLsb'_eq_extractLsb' rfl
  have hall : c.extractLsb' 5 27 ++ c.extractLsb' 0 5 = c.extractLsb' 0 32 :=
    BitVec.extractLsb'_append_extractLsb'_eq_extractLsb' rfl
  calc wordOf (fieldsOf c)
    _ = c.extractLsb' 5 27 ++ (c.extractLsb' 4 1 ++ c.extractLsb' 0 4) := BitVec.append_assoc
    _ = c := by rw [hlow, hall, BitVec.extractLsb'_eq_self]

@[simp] theorem alphabetBit_alphabetOf : ∀ a : BitVec 1, alphabetBit (alphabetOf a) = a := by decide

/-- The fields of every command are those of a legal word (R94, R97). -/
theorem encodeFields_wf (i : Instr) : (encodeFields i).wf = true := by
  cases i with
  | b64Enc alph => cases alph <;> rfl
  | b64Dec alph => cases alph <;> rfl
  | _ => rfl

/-- R97's list of the illegal words is the complement of the well-formed fields. -/
theorem Fields.wf_eq_false_iff (f : Fields) :
    f.wf = false ↔ (f.res ≠ 0#27 ∨ f.op = 0#4 ∨ 12 ≤ f.op.toNat ∨ (f.alph = 1#1 ∧ f.op ≠ 0xA#4 ∧ f.op ≠ 0xB#4)) := by
  have hop : f.opOk = false ↔ f.op = 0#4 ∨ 12 ≤ f.op.toNat := by
    rw [Fields.opOk, decide_eq_false_iff_not, ← BitVec.toNat_inj, BitVec.toNat_ofNat]
    omega
  have halph : f.alphOk = false ↔ f.alph = 1#1 ∧ f.op ≠ 0xA#4 ∧ f.op ≠ 0xB#4 := by
    rcases BitVec.eq_zero_or_eq_one f.alph with h | h <;> simp [Fields.alphOk, h]
  have hres : f.resOk = false ↔ f.res ≠ 0#27 := by simp [Fields.resOk]
  rw [Fields.wf, Bool.and_eq_false_iff, Bool.and_eq_false_iff, hres, hop, halph, or_assoc, or_assoc]

/-! ### The decoder's outcomes -/

/-- What the decoder can answer for the fields `f`: a command with exactly these fields, or an error for fields that are
not those of a legal word. -/
def DecodesSoundly (f : Fields) (o : Except Illegal Instr) : Prop :=
  match o with
  | .ok i => f = encodeFields i
  | .error _ => f.wf = false

/-- A command other than the two base64 commands: ALPH must be 0 (R92). -/
theorem plainCommand_sound (alph : BitVec 1) {i : Instr} (hA : opcode i ≠ 0xA#4) (hB : opcode i ≠ 0xB#4) :
    DecodesSoundly { op := opcode i, alph := alph, res := 0#27 } (plainCommand alph i) := by
  rcases BitVec.eq_zero_or_eq_one alph with rfl | rfl
  · have hplain : alphField i = 0#1 := by
      cases i with
      | b64Enc a => exact absurd rfl hA
      | b64Dec a => exact absurd rfl hB
      | _ => rfl
    simp [plainCommand, DecodesSoundly, encodeFields, hplain]
  · exact (Fields.wf_eq_false_iff _).mpr (.inr (.inr (.inr ⟨rfl, hA, hB⟩)))

/-- Every answer of the decode procedure (R96) is sound, branch by branch. -/
theorem decodeFields_sound (f : Fields) : DecodesSoundly f (decodeFields f) := by
  obtain ⟨op, alph, res⟩ := f
  have hop {n : Nat} (h : op.toNat = n) : op = BitVec.ofNat 4 n := by rw [← h, BitVec.ofNat_toNat, BitVec.setWidth_eq]
  dsimp only [decodeFields]
  split
  next hres => exact (Fields.wf_eq_false_iff _).mpr (.inl hres)
  next hres =>
    obtain rfl : res = 0#27 := not_not.mp hres
    split
    iterate 9
      next h =>
        obtain rfl := hop h
        exact plainCommand_sound alph (by decide) (by decide)
    iterate 2
      next h =>
        obtain rfl := hop h
        simp [DecodesSoundly, encodeFields, opcode, alphField]
    next =>
      have hreserved : op.toNat = 0 ∨ 12 ≤ op.toNat := by simp only [imp_false] at *; omega
      exact (Fields.wf_eq_false_iff _).mpr (.inr (hreserved.imp hop .inl))

/-- A word that decodes to a command is the command's word (R94). -/
theorem eq_encode_of_decode {c : Word} {i : Instr} (h : decode c = .ok i) : c = encode i := by
  have hsound : DecodesSoundly (fieldsOf c) (.ok i) := h ▸ decodeFields_sound (fieldsOf c)
  rw [← wordOf_fieldsOf c, hsound, encode]

/-- The 13 legal command words (R94). -/
def legalWords : List Word :=
  [0x1#32, 0x2#32, 0x3#32, 0x4#32, 0x5#32, 0x6#32, 0x7#32, 0x8#32, 0x9#32, 0xA#32, 0xB#32, 0x1A#32, 0x1B#32]

theorem encode_mem_legalWords (i : Instr) : encode i ∈ legalWords := by
  cases i with
  | b64Enc alph => cases alph <;> decide
  | b64Dec alph => cases alph <;> decide
  | _ => decide

/-- A word is refused exactly when its fields are not those of a legal word (R97). -/
theorem decode_error_iff (c : Word) : (∃ e, decode c = .error e) ↔ (fieldsOf c).wf = false := by
  have hsound : DecodesSoundly (fieldsOf c) (decode c) := decodeFields_sound (fieldsOf c)
  cases hd : decode c with
  | error e => rw [hd] at hsound; exact ⟨fun _ => hsound, fun _ => ⟨e, rfl⟩⟩
  | ok i =>
    rw [hd] at hsound
    have hwf : (fieldsOf c).wf = true := hsound ▸ encodeFields_wf i
    simp [hwf]

end Sys2Proof

namespace Sys2Proof.Machine

/-! ### The engine's turn -/

/-- With no fault recorded and the engine to move, a step is the engine's turn with the turn taken (R74, R270). -/
theorem step_engine {s : State} (hf : s.faults = []) (ht : nextTurn s = .engine) :
    step s = engineTurn (takeTurn s) := by
  simp only [step, stepOnce, hf, ht, runTurn]

/-- An illegal word pending raises Error(ILLEGAL) on the engine's turn (R97). -/
theorem engineTurn_illegal {s : State} {e : Illegal} (hb : s.busy = true) (hd : decode s.cmdl = .error e) :
    engineTurn s = .next (raiseError .illegal s) := by
  simp only [engineTurn, hb, hd, if_true]

end Sys2Proof.Machine

section
open Sys2Proof Sys2Proof.Machine

/-- Settles O4: the illegal words by `decode_error_iff`, and the engine's turn with one of them pending. -/
theorem illegalWordRaisesIllegal : Obligations.IllegalWordRaisesIllegal := by
  refine ⟨fun c => ?_, fun s e hf ht hb hd => ?_⟩
  · rw [decode_error_iff, Fields.wf_eq_false_iff]
    rfl
  · rw [step_engine hf ht]
    exact engineTurn_illegal hb hd

/-- Settles O1: the listed words are decoded by evaluation; a word that decodes is its command's word, which is listed. -/
theorem opcodeMapIsExact : Obligations.OpcodeMapIsExact := by
  refine ⟨by decide, fun c hc => ?_⟩
  cases hd : decode c with
  | error e => exact ⟨e, rfl⟩
  | ok i =>
    obtain rfl := eq_encode_of_decode hd
    exact absurd (encode_mem_legalWords i) hc
end
end

section
/-! The SM3 datapath: the message schedule, the rounds of CF, whole-block compression, ABSORB and PAD (R122 to R142). -/

namespace Sys2Proof.Machine

/-! ### Words and bytes -/

/-- The rotation of R10 is the left rotation of a 32-bit word. -/
theorem rotl_eq_rotateLeft (x : Word) (n : Nat) : rotl x n = x.rotateLeft (n % 32) := by
  rw [BitVec.rotateLeft_def, Nat.mod_mod, rotl]

/-- A byte behind a bit vector is its lowest base-256 digit. -/
theorem toNat_append_byte {n : Nat} (x : BitVec n) (b : Byte) : (x ++ b).toNat = x.toNat * 2 ^ 8 + b.toNat := by
  rw [BitVec.toNat_append, ← Nat.shiftLeft_add_eq_or_of_lt b.isLt, Nat.shiftLeft_eq]

/-- `be32` is the number its four bytes write, the most significant first (R12). -/
theorem be32_toNat (s : List Byte) (i : Nat) : (be32 s i).toNat =
    (s.getD i 0).toNat * 2 ^ 24 + (s.getD (i + 1) 0).toNat * 2 ^ 16 + (s.getD (i + 2) 0).toNat * 2 ^ 8 +
      (s.getD (i + 3) 0).toNat := by
  rw [be32, toNat_append_byte, toNat_append_byte, toNat_append_byte]
  ring

/-! ### The message schedule -/

@[simp] theorem firstWords_length (blk : List Byte) : (firstWords blk).length = 16 := by simp [firstWords]

@[simp] theorem schedule_length (blk : List Byte) : (schedule blk).length = 68 :=
  (expandMore_spec 52 (firstWords blk)).1

/-- The schedule begins with the words of the block (R122, R130). -/
theorem schedule_getD_first (blk : List Byte) {j : Nat} (hj : j < 16) :
    (schedule blk).getD j 0 = be32 blk (4 * j) := by
  obtain ⟨-, hkeep, -⟩ := expandMore_spec 52 (firstWords blk)
  rw [schedule, hkeep j (by simpa using hj)]
  simp [firstWords, hj]

/-- A word in front of place `j` is the same in the first `j` words. -/
theorem getD_take_of_lt (w : List Word) {i j : Nat} (h : i < j) : (w.take j).getD i 0 = w.getD i 0 := by
  rw [List.getD_eq_getElem?_getD, List.getElem?_take_of_lt h, List.getD_eq_getElem?_getD]

/-- The recurrence from the first `j` words of a list reads the words of the list itself (R131). -/
theorem nextWord_take (w : List Word) {j : Nat} (h16 : 16 ≤ j) (hj : j ≤ w.length) :
    nextWord (w.take j) =
      p1 (w.getD (j - 16) 0 ^^^ w.getD (j - 9) 0 ^^^ rotl (w.getD (j - 3) 0) 15)
        ^^^ rotl (w.getD (j - 13) 0) 7 ^^^ w.getD (j - 6) 0 := by
  have hread (d : Nat) (hd : 0 < d) : (w.take j).getD (j - d) 0 = w.getD (j - d) 0 := getD_take_of_lt w (by omega)
  rw [nextWord, List.length_take_of_le hj]
  simp only [hread _ (Nat.succ_pos _)]

/-- Every further word of the schedule is the recurrence's (R131). -/
theorem schedule_getD_next (blk : List Byte) {j : Nat} (h16 : 16 ≤ j) (hj : j < 68) :
    (schedule blk).getD j 0 = nextWord ((schedule blk).take j) := by
  obtain ⟨-, -, hnext⟩ := expandMore_spec 52 (firstWords blk)
  rw [firstWords_length] at hnext
  exact hnext le_rfl j h16 hj

/-! ### Rounds and blocks -/

/-- The listed ROM words are those of the formulas (R127). -/
theorem roundConstants_eq : roundConstants = (List.range 64).map kRom := by decide

theorem kRom_eq_roundConstants {j : Nat} (hj : j < 64) : kRom j = roundConstants.getD j 0 := by
  simp [roundConstants_eq, hj]

/-- CF is 64 rounds from the chaining value, and the feed-forward (R136). -/
theorem cf_eq (v : Chain) (blk : List Byte) : cf v blk = feedForward (sm3Rounds (schedule blk) v 0 64) v := by
  unfold cf
  rfl

/-- COMPRESS_N takes the first block and goes on with the rest (R137). -/
theorem compressN_block_append (v : Chain) {blk : List Byte} (hblk : blk.length = 64) (s : List Byte) :
    compressN v (blk ++ s) = compressN (cf v blk) s := by
  have hcount : (blk ++ s).length / 64 = s.length / 64 + 1 := by rw [List.length_append, hblk]; omega
  rw [compressN, hcount, compressBlocks, List.take_left' hblk, List.drop_left' hblk, compressN]

/-- The first `n` blocks of a sequence compressed are COMPRESS_N of those blocks alone (R137). -/
theorem compressN_take_blocks (v : Chain) {s : List Byte} {n : Nat} (h : 64 * n ≤ s.length) :
    compressN v (s.take (64 * n)) = compressBlocks v s n := by
  have hlen : (s.take (64 * n)).length = 64 * n := List.length_take_of_le h
  calc compressN v (s.take (64 * n))
      = compressBlocks v (s.take (64 * n)) n := by rw [compressN, hlen, Nat.mul_div_cancel_left n (by decide)]
    _ = compressBlocks v (s.take (64 * n) ++ s.drop (64 * n)) n := (compressBlocks_append _ v hlen.ge).symm
    _ = compressBlocks v s n := by rw [List.take_append_drop]

/-! ### The padding -/

theorem pad_head_length (h : HashState) : (h.buf ++ [0x80#8]).length = h.blen + 1 := List.length_append

/-- What stands in front of the bit length (R142). -/
theorem pad_front_length (h : HashState) :
    (h.buf ++ [0x80#8] ++ zeros (padZeros h.blen)).length = h.blen + 1 + padZeros h.blen := by
  rw [List.length_append, pad_head_length, zeros_length]

theorem pad_length_parts (h : HashState) : h.pad.length = h.blen + 1 + padZeros h.blen + 8 := by
  rw [HashState.pad, List.length_append, pad_front_length, bytes64_length]

/-- The padding is one block or two (R142). -/
theorem pad_length {h : HashState} (hb : h.blen < 64) : h.pad.length = if h.blen ≤ 55 then 64 else 128 := by
  rw [pad_length_parts, padZeros]
  split <;> omega

/-- The padding begins with the buffer and 0x80 (R142). -/
theorem pad_take (h : HashState) : h.pad.take (h.blen + 1) = h.buf ++ [0x80#8] := by
  rw [HashState.pad, List.append_assoc]
  exact List.take_left' (pad_head_length h)

/-- The padding ends with the bit length (R142). -/
theorem pad_drop (h : HashState) : h.pad.drop (h.pad.length - 8) = bytes64 h.bitLength := by
  rw [pad_length_parts, Nat.add_sub_cancel]
  exact List.drop_left' (pad_front_length h)

/-- Between 0x80 and the bit length the padding is zero (R142). -/
theorem pad_getElem?_zero {h : HashState} {j : Nat} (hlo : h.blen + 1 ≤ j) (hhi : j < h.pad.length - 8) :
    h.pad[j]? = some 0#8 := by
  have hhead := pad_head_length h
  have hfront := pad_front_length h
  rw [pad_length_parts] at hhi
  rw [HashState.pad, List.getElem?_append_left (by omega), List.getElem?_append_right (by omega), zeros,
    List.getElem?_replicate_of_lt (by omega)]

end Sys2Proof.Machine

section
open Sys2Proof Sys2Proof.Machine

/-- Settles O29: the rotation and the word by their rules, the schedule by what the expander's loop adds. -/
theorem expanderFollowsTheRecurrence : Obligations.ExpanderFollowsTheRecurrence := by
  refine ⟨rotl_eq_rotateLeft, be32_toNat, fun blk => ⟨schedule_length blk, fun j => schedule_getD_first blk,
    fun j h16 hj => ?_, fun j _ => rfl⟩⟩
  have hlen := schedule_length blk
  rw [schedule_getD_next blk h16 (by omega), nextWord_take _ h16 (by omega)]
  rfl

/-- Settles O30: the chain of CF is its rounds counted from 0, each the next round of the last by `sm3Rounds_succ`. -/
theorem compressNAppliesCfInOrder : Obligations.CompressNAppliesCfInOrder := by
  refine ⟨fun v => rfl, fun v blk s hblk _ => compressN_block_append v hblk s,
    fun j hj => ⟨rfl, kRom_eq_roundConstants (by omega)⟩,
    fun v blk => ⟨sm3Rounds (schedule blk) v 0, rfl, fun j hj => ?_, cf_eq v blk⟩⟩
  rw [sm3Rounds_succ, Nat.zero_add, sm3Round, kRom_eq_roundConstants (by omega)]
  rfl

/-- Settles O31: the loop's chaining value is COMPRESS_N of the whole blocks. -/
theorem absorbCompressesWholeBlocks : Obligations.AbsorbCompressesWholeBlocks := by
  intro h data s n
  have hbuf : (h.absorb data).buf = s.drop (64 * n) := absorb_buf data h
  refine ⟨?_, by rw [absorb_eq], hbuf, ?_, absorb_buf_lt data h⟩
  · rw [absorb_eq, compressN_take_blocks h.v (by omega)]
  · rw [HashState.blen, hbuf, List.length_drop]

/-- Settles O33, part by part of the concatenation the padding is. -/
theorem paddingFillsOneOrTwoBlocks : Obligations.PaddingFillsOneOrTwoBlocks := by
  intro h hb
  refine ⟨pad_length hb, pad_take h, fun j => pad_getElem?_zero, pad_drop h, fun k hk => ?_⟩
  rw [← List.getElem?_drop, pad_drop, bytes64_getElem? _ hk]
  rfl

end
end

section
/-! The hash commands (41_hash_commands.md): the next state of each, one rule per outcome in the order of its checks, and the
error codes each command of the model can report (R272). -/

namespace Sys2Proof.Machine

/-! ### Checks that fail -/

theorem srcValid_eq_false {s : State} (h : ¬InDmem s s.src.toNat s.len.toNat) : srcValid s = false :=
  (validRange_false _ _ _).mpr h

theorem dstValid_eq_false {s : State} {n : Nat} (h : ¬InDmem s s.dst.toNat n) : dstValid s n = false :=
  (validRange_false _ _ _).mpr h

/-! ### UPDATE (R172) -/

theorem execUpdate_state {s : State} (hc : s.ctx ≠ .hashActive) : execUpdate s = .next (raiseError .state s) :=
  if_pos hc

theorem execUpdate_range {s : State} (hc : s.ctx = .hashActive) (hs : ¬InDmem s s.src.toNat s.len.toNat) :
    execUpdate s = .next (raiseError .range s) := by
  simp [execUpdate, hc, srcValid_eq_false hs]

theorem execUpdate_completes {s : State} {data : List Byte} (hc : s.ctx = .hashActive)
    (hs : InDmem s s.src.toNat s.len.toNat) (hd : srcBytes s = some data) :
    execUpdate s = .next (complete 0 { s with hash := s.hash.absorb data }) := by
  simp [execUpdate, hc, srcValid_of_inDmem hs, hd, withBytes_some]

/-! ### FINISH (R174) -/

theorem execFinish_state {s : State} (hc : s.ctx ≠ .hashActive) : execFinish s = .next (raiseError .state s) :=
  if_pos hc

theorem execFinish_range {s : State} (hc : s.ctx = .hashActive) (hd : ¬InDmem s s.dst.toNat 32) :
    execFinish s = .next (raiseError .range s) := by
  simp [execFinish, hc, dstValid_eq_false hd]

theorem execFinish_completes {s : State} (hc : s.ctx = .hashActive) (hd : InDmem s s.dst.toNat 32) :
    execFinish s = .next (complete 32
      { s with mem := dstWritten s s.hash.digest, hash := s.hash.finalized, ctx := .hashDone }) := by
  simp [execFinish, hc, dstValid_of_inDmem hd]

/-! ### DIGEST (R176) -/

theorem execDigest_range {s : State} (h : ¬(InDmem s s.src.toNat s.len.toNat ∧ InDmem s s.dst.toNat 32)) :
    execDigest s = .next (raiseError .range s) := by
  rcases not_and_or.mp h with hs | hd
  · simp [execDigest, srcValid_eq_false hs]
  · simp [execDigest, dstValid_eq_false hd]

theorem execDigest_completes {s : State} {m : List Byte} (hs : InDmem s s.src.toNat s.len.toNat)
    (hd : InDmem s s.dst.toNat 32) (hm : srcBytes s = some m) :
    execDigest s = .next (complete 32
      { s with mem := dstWritten s (sm3 m), hash := (HashState.fresh.absorb m).finalized, kb := zeros 64,
               ctx := .hashDone }) := by
  simp [execDigest, srcValid_of_inDmem hs, dstValid_of_inDmem hd, hm, withBytes_some, sm3]

/-- A DIGEST that succeeds found both ranges inside DMEM and every source byte written. -/
theorem execDigest_succeeds {s t : State} (hx : execDigest s = .next t) (he : t.err = false) :
    InDmem s s.src.toNat s.len.toNat ∧ InDmem s s.dst.toNat 32 ∧ ∃ m, srcBytes s = some m := by
  by_cases hr : InDmem s s.src.toNat s.len.toNat ∧ InDmem s s.dst.toNat 32
  · obtain ⟨hs, hd⟩ := hr
    refine ⟨hs, hd, ?_⟩
    cases hm : srcBytes s with
    | none => rw [execDigest_unwritten hs hd (holdsUnwritten_of_readBytes_none hm)] at hx; cases hx
    | some m => exact ⟨m, rfl⟩
  · rw [execDigest_range hr] at hx
    cases hx
    cases he

/-- A fresh context counts the whole blocks of what it absorbs (R140, R145). -/
theorem fresh_absorb_nblk (m : List Byte) : (HashState.fresh.absorb m).nblk = BitVec.ofNat 64 (m.length / 64) := by
  simp [absorb_eq, HashState.fresh]

/-! ### COMPRESS (R180) -/

theorem execCompress_state {s : State} (hc : s.ctx = .hmacInner) : execCompress s = .next (raiseError .state s) :=
  if_pos hc

theorem execCompress_length {s : State} (hc : s.ctx ≠ .hmacInner) (hl : s.len.toNat % 64 ≠ 0) :
    execCompress s = .next (raiseError .length s) := by
  simp [execCompress, hc, hl]

theorem execCompress_range {s : State} (hc : s.ctx ≠ .hmacInner) (hl : s.len.toNat % 64 = 0)
    (hs : ¬InDmem s s.src.toNat s.len.toNat) : execCompress s = .next (raiseError .range s) := by
  simp [execCompress, hc, hl, srcValid_eq_false hs]

theorem execCompress_completes {s : State} {blocks : List Byte} (hc : s.ctx ≠ .hmacInner) (hl : s.len.toNat % 64 = 0)
    (hs : InDmem s s.src.toNat s.len.toNat) (hb : srcBytes s = some blocks) :
    execCompress s = .next (complete 0 { s with hash := { s.hash with v := compressN s.hash.v blocks } }) := by
  simp [execCompress, hc, hl, srcValid_of_inDmem hs, hb, withBytes_some]

/-! ### The error codes of a command (R272) -/

/-- An outcome that ends in an error only with an ECODE of the list. -/
def RaisesOnly (codes : List (BitVec 4)) (o : Host.Outcome State Fault Refusal) : Prop :=
  ∀ t, o = .next t → t.err = true → t.ecode ∈ codes

theorem raisesOnly_raiseError {codes : List (BitVec 4)} {e : ErrorCode} (he : e.code ∈ codes) (s : State) :
    RaisesOnly codes (.next (raiseError e s)) := by
  intro t ht _
  cases ht
  exact he

theorem raisesOnly_complete (codes : List (BitVec 4)) (n : Nat) (s : State) :
    RaisesOnly codes (.next (complete n s)) := by
  intro t ht herr
  cases ht
  cases herr

/-- A check that fails with a code of the list, and what the command does after it. -/
theorem raisesOnly_check {codes : List (BitVec 4)} {e : ErrorCode} (he : e.code ∈ codes) {c : Prop} [Decidable c]
    {s : State} {o : Host.Outcome State Fault Refusal} (h : RaisesOnly codes o) :
    RaisesOnly codes (if c then .next (raiseError e s) else o) := by
  split
  · exact raisesOnly_raiseError he s
  · exact h

/-- READ_UNWRITTEN is a fault and reports no code (R280). -/
theorem raisesOnly_withBytes {codes : List (BitVec 4)} {bytes : Option (List Byte)}
    {k : List Byte → Host.Outcome State Fault Refusal} (h : ∀ bs, RaisesOnly codes (k bs)) :
    RaisesOnly codes (withBytes bytes k) := by
  cases bytes with
  | none => intro t ht; cases ht
  | some bs => exact h bs

/-- Every error a command raises has a code R272 lists for it, check by check of the command's rule. -/
theorem exec_raisesOnly (i : Instr) (s : State) : RaisesOnly (raisedBy i) (exec i s) := by
  cases i with
  | init => exact raisesOnly_complete _ _ _
  | update | digest | hmacUpdate =>
    exact raisesOnly_check (by decide) <| raisesOnly_check (by decide) <|
      raisesOnly_withBytes fun _ => raisesOnly_complete _ _ _
  | finish | hmacFinish =>
    exact raisesOnly_check (by decide) <| raisesOnly_check (by decide) <| raisesOnly_complete _ _ _
  | compress =>
    exact raisesOnly_check (by decide) <| raisesOnly_check (by decide) <| raisesOnly_check (by decide) <|
      raisesOnly_withBytes fun _ => raisesOnly_complete _ _ _
  | hmacInit =>
    exact raisesOnly_check (by decide) <| raisesOnly_withBytes fun _ => raisesOnly_complete _ _ _
  | hmac =>
    exact raisesOnly_check (by decide) <| raisesOnly_check (by decide) <| raisesOnly_check (by decide) <|
      raisesOnly_withBytes fun _ => raisesOnly_withBytes fun _ => raisesOnly_complete _ _ _
  | b64Enc alph =>
    show RaisesOnly [4, 7] (execB64Enc alph s)
    exact raisesOnly_check (by decide) <| raisesOnly_withBytes fun _ =>
      raisesOnly_check (by decide) <| raisesOnly_check (by decide) <| raisesOnly_complete _ _ _
  | b64Dec alph =>
    show RaisesOnly [4, 5, 6, 7] (execB64Dec alph s)
    refine raisesOnly_check (by decide) (raisesOnly_withBytes fun t => ?_)
    rcases b64Decode_cases alph t with h | h | h <;> rw [h]
    · exact raisesOnly_raiseError (by decide) s
    · exact raisesOnly_raiseError (by decide) s
    · exact raisesOnly_check (by decide) <| raisesOnly_check (by decide) <| raisesOnly_complete _ _ _

end Sys2Proof.Machine

section
open Sys2Proof Sys2Proof.Machine

/-- Settles O21: a command that answers raised an error or completed, and its error codes are those of `exec_raisesOnly`. -/
theorem commandStatusIsConsistent : Obligations.CommandStatusIsConsistent := by
  intro i s t hx
  have hcode := exec_raisesOnly i s t hx
  rcases exec_next hx with ⟨e, rfl⟩ | ⟨n, bs, h, kb, p, rfl, -⟩
  · obtain ⟨hne, -⟩ := errorCode_range e
    exact ⟨rfl, by simpa using hne, fun herr => ⟨hcode herr, rfl⟩⟩
  · exact ⟨rfl, by simp, fun herr => by cases herr⟩

/-- Settles O38: where DIGEST succeeds, the same checks and the same read let the three commands complete. -/
theorem digestEqualsInitUpdateFinish : Obligations.DigestEqualsInitUpdateFinish := by
  intro s t hx he
  obtain ⟨hs, hd, m, hm⟩ := execDigest_succeeds hx he
  have ht : Host.Outcome.next t = _ := hx.symm.trans (execDigest_completes hs hd hm)
  cases ht
  exact ⟨_, _, rfl, execUpdate_completes rfl hs hm, execFinish_completes rfl hd⟩

/-- Settles O9: INIT has no check to pass (R171). -/
theorem initStartsHashContext : Obligations.InitStartsHashContext :=
  ⟨rfl, fun _ => rfl⟩

/-- Settles O10, by the three outcomes of UPDATE. -/
theorem updateAbsorbsOrErrs : Obligations.UpdateAbsorbsOrErrs :=
  ⟨rfl, fun _ => ⟨execUpdate_state, execUpdate_range, fun hc hs _ => execUpdate_completes hc hs⟩⟩

/-- Settles O11, by the three outcomes of FINISH; the bytes written are those of V after the padding by `digest_eq`. -/
theorem finishWritesDigestOrErrs : Obligations.FinishWritesDigestOrErrs := by
  refine ⟨rfl, fun s => ⟨execFinish_state, execFinish_range, fun hc hd => ?_⟩⟩
  rw [← digest_eq]
  exact execFinish_completes hc hd

/-- Settles O12, by the two outcomes of DIGEST; NBLK is what the fresh context counted. -/
theorem digestIsOneShotSm3OrErrs : Obligations.DigestIsOneShotSm3OrErrs := by
  refine ⟨rfl, fun s => ⟨execDigest_range, fun hs hd m hm => ?_⟩⟩
  rw [← fresh_absorb_nblk]
  exact execDigest_completes hs hd hm

/-- Settles O13, by the four outcomes of COMPRESS in the order of its checks. -/
theorem compressAppliesCfOrErrs : Obligations.CompressAppliesCfOrErrs :=
  ⟨rfl, fun _ => ⟨execCompress_state, execCompress_length, execCompress_range,
    fun hc hl hs _ => execCompress_completes hc hl hs⟩⟩

end
end

section
/-! The HMAC commands (42_hmac.md): key block, pads and MAC as SM3 of byte strings, the next state of each command by its
outcome, the phase table (R200), and what a new context forgets (R212, R218). -/

namespace Sys2Proof.Machine

/-! ### Key block and pads (R201, R202) -/

theorem keyBlock_short {k : List Byte} (h : k.length ≤ 64) : keyBlock k = k ++ zeros (64 - k.length) := if_pos h

theorem keyBlock_long {k : List Byte} (h : 64 < k.length) : keyBlock k = sm3 k ++ zeros 32 := if_neg (by omega)

/-- XOR with one byte and then another is XOR with the XOR of the two. -/
theorem xorAll_xorAll (a b : Byte) (s : List Byte) : xorAll a (xorAll b s) = xorAll (b ^^^ a) s := by
  simp [xorAll, BitVec.xor_assoc]

/-- The in-place conversion turns the inner pad into the outer one: 0x36 ^ 0x6A = 0x5c (R202). -/
theorem xorAll_convPad_ipad (kb : List Byte) : xorAll convPad (xorAll ipad kb) = xorAll opad kb := xorAll_xorAll _ _ kb

/-! ### The inner and the outer hash (R203, R205, R209) -/

/-- Absorbing a 64-byte key block into a fresh context is one compression, counted, with nothing pending (R205). -/
theorem innerStart_eq {kb : List Byte} (h : kb.length = 64) : innerStart kb = { v := cf iv kb, nblk := 1, buf := [] } := by
  have htake : kb.take 64 = kb := List.take_of_length_le h.le
  simp [innerStart, absorb_eq, HashState.fresh, compressBlocks, h, htake]

/-- The inner hash is SM3 of the padded key block and the message (R145). -/
theorem innerStart_absorb_digest (kb m : List Byte) : ((innerStart kb).absorb m).digest = sm3 (kb ++ m) := by
  rw [innerStart, absorb_absorb, sm3]

/-- The MAC the commands compute from the inner-padded key block is HMAC_SM3 (R203). -/
theorem outerMac_innerStart (k m : List Byte) :
    outerMac (xorAll ipad (keyBlock k)) ((innerStart (xorAll ipad (keyBlock k))).absorb m).digest = hmacSm3 k m := by
  rw [outerMac_eq, xorAll_convPad_ipad, innerStart_absorb_digest, hmacSm3]

/-! ### HMAC_INIT (R205) -/

theorem keyValid_eq_false {s : State} (h : ¬InDmem s s.kadr.toNat s.klen.toNat) : keyValid s = false :=
  (validRange_false _ _ _).mpr h

theorem execHmacInit_range {s : State} (hk : ¬InDmem s s.kadr.toNat s.klen.toNat) :
    execHmacInit s = .next (raiseError .range s) := if_pos (keyValid_eq_false hk)

theorem execHmacInit_completes {s : State} {k : List Byte} (hk : InDmem s s.kadr.toNat s.klen.toNat)
    (hkey : keyBytes s = some k) :
    execHmacInit s = .next (complete 0
      { s with kb := xorAll ipad (keyBlock k), hash := innerStart (xorAll ipad (keyBlock k)), ctx := .hmacInner }) := by
  simp [execHmacInit, keyValid_of_inDmem hk, hkey, withBytes_some]

/-! ### HMAC_UPDATE (R207) -/

theorem execHmacUpdate_state {s : State} (hc : s.ctx ≠ .hmacInner) : execHmacUpdate s = .next (raiseError .state s) :=
  if_pos hc

theorem execHmacUpdate_range {s : State} (hc : s.ctx = .hmacInner) (hs : ¬InDmem s s.src.toNat s.len.toNat) :
    execHmacUpdate s = .next (raiseError .range s) := by
  simp [execHmacUpdate, hc, srcValid_eq_false hs]

theorem execHmacUpdate_completes {s : State} {data : List Byte} (hc : s.ctx = .hmacInner)
    (hs : InDmem s s.src.toNat s.len.toNat) (hd : srcBytes s = some data) :
    execHmacUpdate s = .next (complete 0 { s with hash := s.hash.absorb data }) := by
  simp [execHmacUpdate, hc, srcValid_of_inDmem hs, hd, withBytes_some]

/-! ### HMAC_FINISH (R209) -/

theorem execHmacFinish_state {s : State} (hc : s.ctx ≠ .hmacInner) : execHmacFinish s = .next (raiseError .state s) :=
  if_pos hc

theorem execHmacFinish_range {s : State} (hc : s.ctx = .hmacInner) (hd : ¬InDmem s s.dst.toNat 32) :
    execHmacFinish s = .next (raiseError .range s) := by
  simp [execHmacFinish, hc, dstValid_eq_false hd]

theorem execHmacFinish_completes {s : State} (hc : s.ctx = .hmacInner) (hd : InDmem s s.dst.toNat 32) :
    execHmacFinish s = .next (complete 32
      (zeroize { s with mem := dstWritten s (outerMac s.kb s.hash.digest), ctx := .hmacDone })) := by
  simp [execHmacFinish, hc, dstValid_of_inDmem hd]

/-! ### HMAC (R215) -/

theorem execHmac_range {s : State} (h : ¬(InDmem s s.kadr.toNat s.klen.toNat ∧ InDmem s s.src.toNat s.len.toNat ∧
    InDmem s s.dst.toNat 32)) : execHmac s = .next (raiseError .range s) := by
  rcases not_and_or.mp h with hk | h
  · simp [execHmac, keyValid_eq_false hk]
  · rcases not_and_or.mp h with hs | hd
    · simp [execHmac, srcValid_eq_false hs]
    · simp [execHmac, dstValid_eq_false hd]

theorem execHmac_completes {s : State} {k m : List Byte} (hk : InDmem s s.kadr.toNat s.klen.toNat)
    (hs : InDmem s s.src.toNat s.len.toNat) (hd : InDmem s s.dst.toNat 32) (hkey : keyBytes s = some k)
    (hm : srcBytes s = some m) :
    execHmac s = .next (complete 32 (zeroize { s with mem := dstWritten s (outerMac (xorAll ipad (keyBlock k))
      ((innerStart (xorAll ipad (keyBlock k))).absorb m).digest), ctx := .hmacDone })) := by
  simp [execHmac, keyValid_of_inDmem hk, srcValid_of_inDmem hs, dstValid_of_inDmem hd, hkey, hm, withBytes_some]

/-- An HMAC that succeeds found its three ranges inside DMEM and every key and source byte written. -/
theorem execHmac_succeeds {s t : State} (hx : execHmac s = .next t) (he : t.err = false) :
    InDmem s s.kadr.toNat s.klen.toNat ∧ InDmem s s.src.toNat s.len.toNat ∧ InDmem s s.dst.toNat 32 ∧
      ∃ k m, keyBytes s = some k ∧ srcBytes s = some m := by
  by_cases hr : InDmem s s.kadr.toNat s.klen.toNat ∧ InDmem s s.src.toNat s.len.toNat ∧ InDmem s s.dst.toNat 32
  · obtain ⟨hk, hs, hd⟩ := hr
    refine ⟨hk, hs, hd, ?_⟩
    cases hkey : keyBytes s with
    | none => rw [execHmac_unwritten hk hs hd (.inl (holdsUnwritten_of_readBytes_none hkey))] at hx; cases hx
    | some k =>
      cases hm : srcBytes s with
      | none => rw [execHmac_unwritten hk hs hd (.inr (holdsUnwritten_of_readBytes_none hm))] at hx; cases hx
      | some m => exact ⟨k, m, rfl, rfl⟩
  · rw [execHmac_range hr] at hx
    cases hx
    cases he

/-! ### The phase table (R200) -/

/-- The entries STATE of R200: the stream commands outside their own phase, and COMPRESS while an HMAC is live. -/
theorem phaseTable_eq_none_iff (i : Instr) (p : Phase) : phaseTable i p = none ↔
    ((i = .update ∨ i = .finish) ∧ p ≠ .hashActive) ∨ ((i = .hmacUpdate ∨ i = .hmacFinish) ∧ p ≠ .hmacInner) ∨
      (i = .compress ∧ p = .hmacInner) := by
  cases i with
  | update | finish | compress | hmacUpdate | hmacFinish => cases p <;> simp [phaseTable]
  | init | digest | hmacInit | hmac | b64Enc alph | b64Dec alph => simp [phaseTable]

/-- Where the table says STATE, the command's first check raises it. -/
theorem exec_of_phaseTable_none {i : Instr} {s : State} (h : phaseTable i s.ctx = none) :
    exec i s = .next (raiseError .state s) := by
  obtain ⟨rfl | rfl, hc⟩ | ⟨rfl | rfl, hc⟩ | ⟨rfl, hc⟩ := (phaseTable_eq_none_iff i s.ctx).mp h
  · exact execUpdate_state hc
  · exact execFinish_state hc
  · exact execHmacUpdate_state hc
  · exact execHmacFinish_state hc
  · exact execCompress_state hc

/-- A command that completes leaves the phase of the table. -/
theorem contextAfter_phase {i : Instr} {s : State} {bs : List Byte} {h : HashState} {kb : List Byte} {p : Phase}
    (hc : ContextAfter i s bs h kb p) : phaseTable i s.ctx = some p := by
  cases i with
  | init => obtain ⟨-, -, -, rfl⟩ := hc; rfl
  | update => obtain ⟨hctx, -, -, -, rfl⟩ := hc; rw [hctx]; rfl
  | finish => obtain ⟨hctx, -, -, -, rfl⟩ := hc; rw [hctx]; rfl
  | digest => obtain ⟨_, -, -, -, -, rfl⟩ := hc; rfl
  | compress =>
    obtain ⟨hctx, -, -, -, -, rfl⟩ := hc
    cases hp : s.ctx with
    | hmacInner => exact absurd hp hctx
    | idle | hashActive | hashDone | hmacDone => rfl
  | hmacInit => obtain ⟨_, -, -, -, -, rfl⟩ := hc; rfl
  | hmacUpdate => obtain ⟨hctx, -, -, -, rfl⟩ := hc; rw [hctx]; rfl
  | hmacFinish => obtain ⟨hctx, -, -, -, rfl⟩ := hc; rw [hctx]; rfl
  | hmac => obtain ⟨_, _, -, -, -, -, -, rfl⟩ := hc; rfl
  | b64Enc alph | b64Dec alph => obtain ⟨-, -, -, -, rfl⟩ := hc; rfl

theorem raisesOnly_mono {codes codes' : List (BitVec 4)} {o : Host.Outcome State Fault Refusal} (hsub : codes ⊆ codes')
    (h : RaisesOnly codes o) : RaisesOnly codes' o := fun t ht herr => hsub (h t ht herr)

/-- A check that passes, and what the command does after it. -/
theorem raisesOnly_passed {codes : List (BitVec 4)} {c : Prop} [Decidable c] {o o' : Host.Outcome State Fault Refusal}
    (hc : ¬c) (h : RaisesOnly codes o) : RaisesOnly codes (if c then o' else o) := by
  rwa [if_neg hc]

/-- Where the table gives a phase, no error is STATE: the commands with a phase check pass it, the others have none. -/
theorem exec_raisesOnly_notState {i : Instr} {s : State} (h : phaseTable i s.ctx ≠ none) :
    RaisesOnly [3, 4, 5, 6, 7] (exec i s) := by
  rw [ne_eq, phaseTable_eq_none_iff] at h
  cases i with
  | init | digest | hmacInit | hmac => exact raisesOnly_mono (by decide) (exec_raisesOnly _ s)
  | b64Enc alph | b64Dec alph => exact raisesOnly_mono (by simp [raisedBy]) (exec_raisesOnly _ s)
  | update | hmacUpdate =>
    exact raisesOnly_passed (by simpa using h) <| raisesOnly_check (by decide) <|
      raisesOnly_withBytes fun _ => raisesOnly_complete _ _ _
  | finish | hmacFinish =>
    exact raisesOnly_passed (by simpa using h) <| raisesOnly_check (by decide) <| raisesOnly_complete _ _ _
  | compress =>
    exact raisesOnly_passed (by simpa using h) <| raisesOnly_check (by decide) <| raisesOnly_check (by decide) <|
      raisesOnly_withBytes fun _ => raisesOnly_complete _ _ _

/-! ### What a command zeroes or forgets (R212, R218) -/

theorem contextAfter_kb_zeros {i : Instr} {s : State} {bs : List Byte} {h : HashState} {kb : List Byte} {p : Phase}
    (hi : i = .init ∨ i = .digest ∨ i = .hmacFinish ∨ i = .hmac) (hc : ContextAfter i s bs h kb p) : kb = zeros 64 := by
  rcases hi with rfl | rfl | rfl | rfl
  · obtain ⟨-, -, hkb, -⟩ := hc; exact hkb
  · obtain ⟨_, -, -, -, hkb, -⟩ := hc; exact hkb
  · obtain ⟨-, -, -, hkb, -⟩ := hc; exact hkb
  · obtain ⟨_, _, -, -, -, -, hkb, -⟩ := hc; exact hkb

theorem contextAfter_hash_zero {i : Instr} {s : State} {bs : List Byte} {h : HashState} {kb : List Byte} {p : Phase}
    (hi : i = .hmacFinish ∨ i = .hmac) (hc : ContextAfter i s bs h kb p) : h = HashState.zero := by
  rcases hi with rfl | rfl
  · obtain ⟨-, -, hh, -⟩ := hc; exact hh
  · obtain ⟨_, _, -, -, -, hh, -⟩ := hc; exact hh

/-- A command that answers with ERR = 0 completed. -/
theorem exec_completed {i : Instr} {s t : State} (hx : exec i s = .next t) (he : t.err = false) :
    ∃ n bs h kb p, t = completed n bs h kb p s ∧ ContextAfter i s bs h kb p := by
  rcases exec_next hx with ⟨e, rfl⟩ | ⟨n, bs, h, kb, p, rfl, -, -, hc⟩
  · cases he
  · exact ⟨n, bs, h, kb, p, rfl, hc⟩

/-- The second outcome is the first wherever that is a success. -/
def AgreesOnSuccess (o o' : Host.Outcome State Fault Refusal) : Prop :=
  ∀ t, o = .next t → t.err = false → o' = .next t

theorem agreesOnSuccess_refl (o : Host.Outcome State Fault Refusal) : AgreesOnSuccess o o := fun _ ht _ => ht

/-- The same check before two outcomes: where it fails there is no success. -/
theorem agreesOnSuccess_check {c : Prop} [Decidable c] {e : ErrorCode} {s : State}
    {f o o' : Host.Outcome State Fault Refusal} (h : AgreesOnSuccess o o') :
    AgreesOnSuccess (if c then .next (raiseError e s) else o) (if c then f else o') := by
  split
  · intro t ht he
    cases ht
    cases he
  · exact h

/-- The same bytes read before two outcomes. -/
theorem agreesOnSuccess_withBytes {bytes : Option (List Byte)} {k k' : List Byte → Host.Outcome State Fault Refusal}
    (h : ∀ bs, AgreesOnSuccess (k bs) (k' bs)) : AgreesOnSuccess (withBytes bytes k) (withBytes bytes k') := by
  cases bytes with
  | none => exact agreesOnSuccess_refl _
  | some bs => exact h bs

end Sys2Proof.Machine

section
open Sys2Proof Sys2Proof.Machine

/-- Settles O14, by the two outcomes of HMAC_INIT; a key block is one whole block. -/
theorem hmacInitPrimesInnerHashOrErrs : Obligations.HmacInitPrimesInnerHashOrErrs := by
  refine ⟨rfl, fun s => ⟨execHmacInit_range, fun hk k hkey => ?_⟩⟩
  have hlen : (xorAll ipad (keyBlock k)).length = 64 := by simp
  have hx := execHmacInit_completes hk hkey
  rw [innerStart_eq hlen] at hx
  exact hx

/-- Settles O15, by the three outcomes of HMAC_UPDATE. -/
theorem hmacUpdateAbsorbsOrErrs : Obligations.HmacUpdateAbsorbsOrErrs :=
  ⟨rfl, fun _ => ⟨execHmacUpdate_state, execHmacUpdate_range, fun hc hs _ => execHmacUpdate_completes hc hs⟩⟩

/-- Settles O16, by the three outcomes of HMAC_FINISH; its outer hash is SM3 of one string by `outerMac_eq`. -/
theorem hmacFinishWritesMacOrErrs : Obligations.HmacFinishWritesMacOrErrs := by
  refine ⟨rfl, fun s => ⟨execHmacFinish_state, execHmacFinish_range, fun hc hd => ?_⟩⟩
  have hx := execHmacFinish_completes hc hd
  rw [outerMac_eq, digest_eq] at hx
  exact hx

/-- Settles O17, by the two outcomes of HMAC; the MAC is HMAC_SM3 by `outerMac_innerStart`. -/
theorem hmacIsOneShotMacOrErrs : Obligations.HmacIsOneShotMacOrErrs := by
  refine ⟨rfl, fun s => ⟨execHmac_range, fun hk hs hd k m hkey hm => ?_⟩⟩
  have hx := execHmac_completes hk hs hd hkey hm
  rw [outerMac_innerStart] at hx
  exact hx

/-- Settles O25: STATE by `exec_of_phaseTable_none`, the phase of a success by `contextAfter_phase`, and the errors of the
other entries by `exec_raisesOnly_notState`. -/
theorem phaseTransitionsFollowTheTable : Obligations.PhaseTransitionsFollowTheTable := by
  refine fun i s => ⟨exec_of_phaseTable_none, fun p t hp hx => ?_⟩
  have hcode := exec_raisesOnly_notState (by simp [hp]) t hx
  rcases exec_next hx with ⟨e, rfl⟩ | ⟨n, bs, h, kb, q, rfl, -, -, hc⟩
  · refine ⟨fun he => (by cases he), fun he => ⟨rfl, fun h2 => ?_⟩⟩
    rw [h2] at hcode
    exact absurd (hcode he) (by decide)
  · have hq : q = p := Option.some.inj ((contextAfter_phase hc).symm.trans hp)
    exact ⟨fun _ => hq, fun he => by cases he⟩

/-- Settles O27: a success completed, and the contexts the four commands complete with hold no key block. -/
theorem keyMaterialIsZeroed : Obligations.KeyMaterialIsZeroed := by
  refine ⟨fun i s t hi hx he => ?_, fun i s t hi hx he => ?_⟩
  · obtain ⟨n, bs, h, kb, p, rfl, hc⟩ := exec_completed hx he
    exact contextAfter_kb_zeros hi hc
  · obtain ⟨n, bs, h, kb, p, rfl, hc⟩ := exec_completed hx he
    exact contextAfter_hash_zero hi hc

/-- Settles O28: the two runs make the same checks and read the same bytes, and complete with a context of their own. -/
theorem restartForgetsTheOldContext : Obligations.RestartForgetsTheOldContext := by
  intro i s t kb h hi
  suffices hagree : AgreesOnSuccess (exec i s) (exec i { s with kb := kb, hash := h }) from hagree t
  rcases hi with rfl | rfl | rfl | rfl
  · exact agreesOnSuccess_refl _
  · exact agreesOnSuccess_check <| agreesOnSuccess_check <| agreesOnSuccess_withBytes fun _ => agreesOnSuccess_refl _
  · exact agreesOnSuccess_check <| agreesOnSuccess_withBytes fun _ => agreesOnSuccess_refl _
  · exact agreesOnSuccess_check <| agreesOnSuccess_check <| agreesOnSuccess_check <|
      agreesOnSuccess_withBytes fun _ => agreesOnSuccess_withBytes fun _ => agreesOnSuccess_refl _

/-- Settles O35: the two cases of KEYBLOCK, and the bytewise XOR. -/
theorem keyBlockAndPadConversion : Obligations.KeyBlockAndPadConversion :=
  ⟨fun _ => keyBlock_short, fun _ => keyBlock_long, keyBlock_length, xorAll_convPad_ipad, xorAll_getElem?⟩

/-- Settles O39: where HMAC succeeds, the same checks and the same reads let the three commands complete. -/
theorem hmacEqualsInitUpdateFinish : Obligations.HmacEqualsInitUpdateFinish := by
  intro s t hx he
  obtain ⟨hk, hs, hd, k, m, hkey, hm⟩ := execHmac_succeeds hx he
  have ht : Host.Outcome.next t = _ := hx.symm.trans (execHmac_completes hk hs hd hkey hm)
  cases ht
  exact ⟨_, _, execHmacInit_completes hk hkey, execHmacUpdate_completes rfl hs hm, execHmacFinish_completes rfl hd⟩

end
end

section
/-! Base64 (43_base64.md): the decode ROM as the inverse of the encode ROM (R233), when a text decodes (R251), and the next
state of the two base64 commands by their outcome (R260, R262). -/

namespace Sys2Proof.Machine

/-! ### The ROMs (R231 to R233), read off their 64 and 256 entries -/

theorem decRom_encRom (alph : Alphabet) (v : BitVec 6) : (decRom alph (encRom alph v)).toNat = v.toNat := by
  revert v; cases alph <;> decide

/-- A byte with a value is the code of that value: the encode ROM has every byte that DEC does not send to the sentinel. -/
theorem encRom_sextet {alph : Alphabet} {c : Byte} (h : decRom alph c ≠ sentinel) : encRom alph (sextet alph c) = c := by
  revert c; cases alph <;> decide

theorem decRom_of_no_code {alph : Alphabet} {c : Byte} (h : ∀ v, encRom alph v ≠ c) : decRom alph c = sentinel := by
  by_contra hvalid
  exact h (sextet alph c) (encRom_sextet hvalid)

/-- The table of R232. -/
theorem encRom_toNat (alph : Alphabet) (v : BitVec 6) : (encRom alph v).toNat =
    if v.toNat ≤ 25 then 0x41 + v.toNat
    else if v.toNat ≤ 51 then 0x61 + (v.toNat - 26)
    else if v.toNat ≤ 61 then 0x30 + (v.toNat - 52)
    else if v.toNat = 62 then (char62 alph).toNat else (char63 alph).toNat := by
  revert v; cases alph <;> decide

/-- The explicit list of R233. -/
theorem decRom_toNat (alph : Alphabet) (c : Byte) : (decRom alph c).toNat =
    if 0x41 ≤ c.toNat ∧ c.toNat ≤ 0x5A then c.toNat - 0x41
    else if 0x61 ≤ c.toNat ∧ c.toNat ≤ 0x7A then c.toNat - 0x61 + 26
    else if 0x30 ≤ c.toNat ∧ c.toNat ≤ 0x39 then c.toNat - 0x30 + 52
    else if c.toNat = (char62 alph).toNat then 62 else if c.toNat = (char63 alph).toNat then 63 else 77 := by
  revert c; cases alph <;> decide

/-! ### The three outcomes of B64DEC and their conditions (R251) -/

theorem b64Decode_invalidChar {alph : Alphabet} {t : List Byte}
    (h : ∃ c, c ∈ nonPadding t ∧ decRom alph c = sentinel) : b64Decode alph t = .error .decodeChar :=
  if_pos (by simpa using h)

theorem b64Decode_badLength {alph : Alphabet} {t : List Byte} (h : ∀ c, c ∈ nonPadding t → decRom alph c ≠ sentinel)
    (hl : (nonPadding t).length % 4 = 1) : b64Decode alph t = .error .decodeLen :=
  (if_neg (by simpa using h)).trans (if_pos hl)

theorem b64Decode_valid {alph : Alphabet} {t : List Byte} (h : ∀ c, c ∈ nonPadding t → decRom alph c ≠ sentinel)
    (hl : (nonPadding t).length % 4 ≠ 1) : b64Decode alph t = .ok (unpack alph (nonPadding t)) :=
  (if_neg (by simpa using h)).trans (if_neg hl)

/-! ### The end both base64 commands share: destination range, then overlap, then the bytes stored -/

/-- What a base64 command does with the bytes `out` it computed from its source (R260, R262). -/
def storeResult (out : List Byte) (s : State) : Host.Outcome State Fault Refusal :=
  if dstValid s out.length = false then .next (raiseError .range s)
  else if srcDstOverlap s out.length then .next (raiseError .overlap s)
  else .next (complete out.length { s with mem := dstWritten s out })

theorem storeResult_range {s : State} {out : List Byte} (hd : ¬InDmem s s.dst.toNat out.length) :
    storeResult out s = .next (raiseError .range s) := if_pos (dstValid_eq_false hd)

theorem storeResult_overlap {s : State} {out : List Byte} (hd : InDmem s s.dst.toNat out.length)
    (ho : s.len.toNat > 0 ∧ out.length > 0 ∧ s.src.toNat < s.dst.toNat + out.length ∧
      s.dst.toNat < s.src.toNat + s.len.toNat) : storeResult out s = .next (raiseError .overlap s) := by
  have hov : srcDstOverlap s out.length = true := (overlaps_true _ _ _ _).mpr ho
  simp [storeResult, dstValid_of_inDmem hd, hov]

theorem storeResult_completes {s : State} {out : List Byte} (hd : InDmem s s.dst.toNat out.length)
    (ho : ¬(s.len.toNat > 0 ∧ out.length > 0 ∧ s.src.toNat < s.dst.toNat + out.length ∧
      s.dst.toNat < s.src.toNat + s.len.toNat)) :
    storeResult out s = .next (complete out.length { s with mem := dstWritten s out }) := by
  have hov : srcDstOverlap s out.length = false := (overlaps_false _ _ _ _).mpr ho
  simp [storeResult, dstValid_of_inDmem hd, hov]

/-! ### B64_ENC (R260) -/

theorem execB64Enc_range (alph : Alphabet) {s : State} (hs : ¬InDmem s s.src.toNat s.len.toNat) :
    execB64Enc alph s = .next (raiseError .range s) := if_pos (srcValid_eq_false hs)

theorem execB64Enc_read (alph : Alphabet) {s : State} {b : List Byte} (hs : InDmem s s.src.toNat s.len.toNat)
    (hb : srcBytes s = some b) : execB64Enc alph s = storeResult (b64Encode alph b) s := by
  simp [execB64Enc, storeResult, srcValid_of_inDmem hs, hb, withBytes_some]

/-! ### B64_DEC (R262) -/

theorem execB64Dec_range (alph : Alphabet) {s : State} (hs : ¬InDmem s s.src.toNat s.len.toNat) :
    execB64Dec alph s = .next (raiseError .range s) := if_pos (srcValid_eq_false hs)

theorem execB64Dec_invalid {alph : Alphabet} {s : State} {t : List Byte} {e : ErrorCode}
    (hs : InDmem s s.src.toNat s.len.toNat) (ht : srcBytes s = some t) (he : b64Decode alph t = .error e) :
    execB64Dec alph s = .next (raiseError e s) := by
  simp [execB64Dec, srcValid_of_inDmem hs, ht, withBytes_some, he]

theorem execB64Dec_decoded {alph : Alphabet} {s : State} {t r : List Byte}
    (hs : InDmem s s.src.toNat s.len.toNat) (ht : srcBytes s = some t) (hr : b64Decode alph t = .ok r) :
    execB64Dec alph s = storeResult r s := by
  simp [execB64Dec, storeResult, srcValid_of_inDmem hs, ht, withBytes_some, hr]

end Sys2Proof.Machine

section
open Sys2Proof Sys2Proof.Machine

/-- Settles O44: a text has an invalid character, or a bad length, or neither, and B64DEC has one outcome for each. -/
theorem decodeFailsExactlyWhenInvalid : Obligations.DecodeFailsExactlyWhenInvalid := by
  refine fun alph t => ⟨⟨fun hx => ?_, b64Decode_invalidChar⟩,
    ⟨fun hx => ?_, fun ⟨hc, hl⟩ => b64Decode_badLength hc hl⟩, fun hc hl => ⟨_, b64Decode_valid hc hl⟩⟩
  · by_contra hno
    have hc : ∀ c, c ∈ nonPadding t → decRom alph c ≠ sentinel := fun c hm hs => hno ⟨c, hm, hs⟩
    by_cases hl : (nonPadding t).length % 4 = 1
    · rw [b64Decode_badLength hc hl] at hx; cases hx
    · rw [b64Decode_valid hc hl] at hx; cases hx
  · have hc : ∀ c, c ∈ nonPadding t → decRom alph c ≠ sentinel := fun c hm hs => by
      rw [b64Decode_invalidChar ⟨c, hm, hs⟩] at hx; cases hx
    refine ⟨hc, ?_⟩
    by_contra hl
    rw [b64Decode_valid hc hl] at hx; cases hx

/-- Settles O18: the source range is checked first, and `storeResult` makes the other checks on the text. -/
theorem b64EncWritesTextOrErrs : Obligations.B64EncWritesTextOrErrs := by
  refine ⟨rfl, rfl, fun alph s => ⟨execB64Enc_range alph, ?_⟩⟩
  rintro hs b out hb rfl
  have hx := execB64Enc_read alph hs hb
  exact ⟨fun hd => hx.trans (storeResult_range hd), fun hd ho => hx.trans (storeResult_overlap hd ho),
    fun hd ho => hx.trans (storeResult_completes hd ho)⟩

/-- Settles O19: the source range and the decode errors come first, and `storeResult` makes the other checks on the bytes. -/
theorem b64DecWritesBytesOrErrs : Obligations.B64DecWritesBytesOrErrs := by
  refine ⟨rfl, rfl, fun alph s => ⟨execB64Dec_range alph, fun hs t ht =>
    ⟨execB64Dec_invalid hs ht, execB64Dec_invalid hs ht, fun r hr => ?_⟩⟩⟩
  have hx := execB64Dec_decoded hs ht hr
  exact ⟨fun hd => hx.trans (storeResult_range hd), fun hd ho => hx.trans (storeResult_overlap hd ho),
    fun hd ho => hx.trans (storeResult_completes hd ho)⟩

/-- Settles O43: the four facts about the ROMs, alphabet by alphabet where the codes of 62 and 63 differ. -/
theorem decodeRomInvertsEncodeRom : Obligations.DecodeRomInvertsEncodeRom := by
  refine ⟨decRom_encRom, fun _ _ => decRom_of_no_code, fun alph v => ?_, fun alph c => ?_⟩
  · rw [encRom_toNat]
    cases alph <;> rfl
  · rw [decRom_toNat]
    cases alph <;> rfl

end
end

section
/-! Errors (60_exceptions.md): what a command that ends in one leaves of the state (R274). -/

namespace Sys2Proof.Machine

/-- A command that answers with ERR = 1 raised an error and did nothing else (R274). -/
theorem exec_raised {i : Instr} {s t : State} (hx : exec i s = .next t) (herr : t.err = true) :
    ∃ e, t = raiseError e s := by
  rcases exec_next hx with hraised | ⟨n, bs, h, kb, p, rfl, -⟩
  · exact hraised
  · cases herr

end Sys2Proof.Machine

section
open Sys2Proof Sys2Proof.Machine

/-- Settles O20: the only way to end with ERR = 1 is `raiseError` on the state before the command, and every error has a
non-zero code. -/
theorem errorsArePrecise : Obligations.ErrorsArePrecise := by
  intro i s t hx herr
  obtain ⟨e, rfl⟩ := exec_raised hx herr
  obtain ⟨hne, -⟩ := errorCode_range e
  exact ⟨rfl, hne⟩

end
end

section
/-! A legal command's word placed for the next step: the step runs the command (R270). Right after reset the stream commands
find their phase missing (R303). -/

namespace Sys2Proof

/-- The word of every command decodes to the command (R94, R96). -/
theorem decode_encode (i : Instr) : decode (encode i) = .ok i := by
  cases i with
  | b64Enc alph => exact (Laws.RoundTrip.b64Enc alph).2
  | b64Dec alph => exact (Laws.RoundTrip.b64Dec alph).2
  | _ => rfl

end Sys2Proof

namespace Sys2Proof.Machine

/-- All 32 bits of a command word are latched. -/
theorem withFetchWord_toNat (s : State) (c : Word) : s.withFetchWord 32 c.toNat = latchCommand s c := by
  rw [State.withFetchWord, Nat.mod_eq_of_lt c.isLt, BitVec.ofNat_toNat, BitVec.setWidth_eq]

/-- A pending command that answers is the engine's turn (R270). -/
theorem engineTurn_command {s t : State} {i : Instr} (hb : s.busy = true) (hd : decode s.cmdl = .ok i)
    (hx : exec i s = .next t) : engineTurn s = .next t := by
  simp only [engineTurn, hb, hd, hx, recordOutcome, if_true]

/-- With no fault recorded, the step that takes a command's word runs the command in the state that holds the word. -/
theorem step_withFetchWord_encode {s t : State} {i : Instr} (hf : s.faults = [])
    (hx : exec i { s with cmdl := encode i, busy := true } = .next t) :
    step (s.withFetchWord 32 (encode i).toNat) = .next t := by
  rw [withFetchWord_toNat, step_engine (s := latchCommand s (encode i)) hf rfl]
  exact engineTurn_command rfl (decode_encode i) hx

/-- STATUS after Error(STATE) in IDLE, with no write dropped: ERR = 1 and ECODE = 2 (R23, R272). -/
theorem statusWord_raiseError_state_idle {s : State} (hc : s.ctx = .idle) (hw : s.wdrop = false) :
    statusWord (raiseError .state s) = 0x00000022#32 := by
  simp only [statusWord, raiseError_wdrop, raiseError_ctx, raiseError_ecode, raiseError_err, raiseError_busy, hc, hw]
  decide

end Sys2Proof.Machine

section
open Sys2Proof Sys2Proof.Machine

/-- Settles O58: the phase table has STATE for the four stream commands in IDLE, the phase after reset. -/
theorem streamCommandsErrAfterReset : Obligations.StreamCommandsErrAfterReset := by
  intro i hi
  have hstate : phaseTable i .idle = none := by
    obtain rfl | rfl | rfl | rfl := hi <;> rfl
  exact ⟨_, step_withFetchWord_encode rfl (exec_of_phaseTable_none hstate), statusWord_raiseError_state_idle rfl rfl⟩

end
end

section
/-! Decoding and encoding (30_encoding.md) agree, and the words the spec writes out. -/

open Sys2Proof Sys2Proof.Machine

/-- Settles O3: a word that decodes is its command's word, and every command's word decodes to the command. -/
theorem decodeAgreesWithEncode : Obligations.DecodeAgreesWithEncode :=
  fun _ i => ⟨eq_encode_of_decode, fun h => h ▸ decode_encode i⟩

/-- Settles O2: the legal words are those of their commands, the illegal ones stop at the named check of R96. -/
theorem specWordsDecode : Obligations.SpecWordsDecode :=
  ⟨decode_encode .finish, decode_encode .hmacFinish, decode_encode (.b64Enc .url), decode_encode (.b64Dec .std),
    rfl, rfl, rfl, rfl⟩

end

section
/-! The step (R74, R270): the turn of each mover, a pending command that executes, and the three steps of a RUN line. -/

namespace Sys2Proof.Machine

/-! ### The turn of each mover -/

theorem step_host {s : State} (hf : s.faults = []) (ht : nextTurn s = .host) : step s = hostTurn (takeTurn s) := by
  simp only [step, stepOnce, hf, ht, runTurn]

theorem step_reset {s : State} (hf : s.faults = []) (ht : nextTurn s = .reset) :
    step s = .next (resetTurn (takeTurn s)) := by
  simp only [step, stepOnce, hf, ht, runTurn]

/-- A fault on record stops the machine (R280). -/
theorem step_faults_cons {s : State} {f : Fault} {fs : List Fault} (hf : s.faults = f :: fs) : step s = .fault f := by
  simp only [step, stepOnce, hf]

theorem hostTurn_nil {s : State} (hh : s.host = []) : hostTurn s = .next s := by
  simp only [hostTurn, hh]

theorem hostTurn_cons {s : State} {h : HostStep} {rest : List HostStep} (hh : s.host = h :: rest) :
    hostTurn s = hostAccess h { s with host := rest } := by
  simp only [hostTurn, hh]

/-- A POLL reads STATUS, and stays next while BUSY = 1 (R101). -/
theorem hostTurn_poll {s : State} {rest : List HostStep} (hh : s.host = .poll :: rest) :
    hostTurn s = .next { s with
      rdata := some (statusWord s), host := if s.busy = true then .poll :: rest else rest } := by
  rw [hostTurn_cons hh]
  rfl

/-- With BUSY = 0 the engine holds its state (R292). -/
theorem engineTurn_idle {s : State} (hb : s.busy = false) : engineTurn s = .next s :=
  if_neg (by simp [hb])

theorem engineTurn_busy {s : State} {i : Instr} (hb : s.busy = true) (hd : decode s.cmdl = .ok i) :
    engineTurn s = recordOutcome s (exec i s) := by
  simp only [engineTurn, hb, hd, if_true]

/-- The first fault recorded is alone in the record (R43). -/
theorem recordFault_eq_of_none {s : State} (hf : s.faults = []) (f : Fault) :
    recordFault f s = { s with faults := [f] } := by
  simp [recordFault, hf]

/-! ### With no coming turn chosen -/

theorem takeTurn_of_sched_nil {s : State} (hs : s.sched = []) : takeTurn s = s := by
  obtain ⟨⟩ := s
  cases hs
  rfl

theorem nextTurn_of_busy {s : State} (hs : s.sched = []) (hb : s.busy = true) : nextTurn s = .engine := by
  simp [nextTurn, hs, hb]

theorem nextTurn_of_idle {s : State} (hs : s.sched = []) (hb : s.busy = false) : nextTurn s = .host := by
  simp [nextTurn, hs, hb]

/-! ### A pending command executes -/

/-- A command that answers leaves BUSY = 0 (R273, R274). -/
theorem exec_busy {i : Instr} {s t : State} (hx : exec i s = .next t) : t.busy = false := by
  rcases exec_next hx with ⟨_, rfl⟩ | ⟨_, _, _, _, _, rfl, -⟩
  all_goals rfl

/-- A command answers where every range it reads is written (R62). -/
theorem exec_answers {i : Instr} {s : State} (hw : ∀ r ∈ rangesRead i s, WrittenRange s r.1 r.2) :
    ∃ t, exec i s = .next t := by
  rcases exec_cases i s with ⟨e, he⟩ | ⟨-, r, hr, hnone⟩ | ⟨n, bs, h, kb, p, he, -⟩
  · exact ⟨_, he⟩
  · obtain ⟨bs, hbs⟩ := readBytes_isSome (hw r hr)
    rw [hnone] at hbs
    cases hbs
  · exact ⟨_, he⟩

/-- No command reads a range other than (KADR, KLEN) and (SRC, LEN) (R95). -/
theorem eq_of_mem_rangesRead {i : Instr} {s : State} {r : Nat × Nat} (hr : r ∈ rangesRead i s) :
    r = (s.kadr.toNat, s.klen.toNat) ∨ r = (s.src.toNat, s.len.toNat) := by
  cases i with
  | init | finish | hmacFinish => cases hr
  | update | digest | compress | hmacUpdate | b64Enc | b64Dec => exact .inr (List.mem_singleton.mp hr)
  | hmacInit => exact .inl (List.mem_singleton.mp hr)
  | hmac => simpa [rangesRead] using hr

/-! ### Runs -/

/-- A run of one step more goes on from the state of its first step. -/
theorem run_succ_of_step {s s' : State} (hx : step s = .next s') (k : Nat) :
    Host.Core.run core (k + 1) s = Host.Core.run core k s' := by
  have hx' : core.step s = .next s' := hx
  simp only [Host.Core.run, hx']

/-- An idle machine with a CMD write next latches the command's word (R22). -/
theorem step_writeCmd {s : State} {c : Word} {rest : List HostStep} (hf : s.faults = []) (hs : s.sched = [])
    (hb : s.busy = false) (hh : s.host = .writeReg 32 (offsetOf .cmd) c :: rest) :
    step s = .next { s with cmdl := c, busy := true, host := rest } := by
  rw [step_host hf (nextTurn_of_idle hs hb), takeTurn_of_sched_nil hs, hostTurn_cons hh, hostAccess_writeReg]
  exact congrArg _ (writeRegister_cmd_idle (s := { s with host := rest }) hb c)

/-- A pending command's word that decodes is executed by the next step (R270). -/
theorem step_command {s t : State} {i : Instr} (hf : s.faults = []) (hs : s.sched = []) (hb : s.busy = true)
    (hd : decode s.cmdl = .ok i) (hx : exec i s = .next t) : step s = .next t := by
  rw [step_engine hf (nextTurn_of_busy hs hb), takeTurn_of_sched_nil hs, engineTurn_command hb hd hx]

/-- A POLL of an idle machine reads STATUS and is done (R101). -/
theorem step_poll_idle {s : State} {rest : List HostStep} (hf : s.faults = []) (hs : s.sched = [])
    (hb : s.busy = false) (hh : s.host = .poll :: rest) :
    step s = .next { s with host := rest, rdata := some (statusWord s) } := by
  rw [step_host hf (nextTurn_of_idle hs hb), takeTurn_of_sched_nil hs, hostTurn_poll hh]
  simp only [hb, Bool.false_eq_true, if_false]

/-! ### What no command writes (R38, R43) -/

/-- No command writes CMDL, the fault record, DMEM_SIZE or the host's side. -/
theorem exec_hostSide {i : Instr} {s t : State} (hx : exec i s = .next t) :
    t.cmdl = s.cmdl ∧ t.faults = s.faults ∧ t.cfg = s.cfg ∧ t.host = s.host ∧ t.sched = s.sched ∧ t.rdata = s.rdata := by
  rcases exec_next hx with ⟨_, rfl⟩ | ⟨_, _, _, _, _, rfl, -⟩
  all_goals exact ⟨rfl, rfl, rfl, rfl, rfl, rfl⟩

end Sys2Proof.Machine

section
open Sys2Proof Sys2Proof.Machine

/-- Settles O22, by what no command writes: the operand registers, WDROP, and the fields of `exec_hostSide`. -/
theorem commandsKeepOperandsAndHostSide : Obligations.CommandsKeepOperandsAndHostSide := by
  intro i s t hx
  obtain ⟨hsrc, hlen, hdst, hkadr, hklen⟩ := exec_operands hx
  exact ⟨hsrc, hlen, hdst, hkadr, hklen, exec_wdrop hx, exec_hostSide hx⟩

/-- Settles O7: an illegal word raises its error, and a command whose ranges are written answers. -/
theorem pendingCommandExecutes : Obligations.PendingCommandExecutes := by
  intro s hf hs hb hsrc hkey
  cases hd : decode s.cmdl with
  | error e =>
    refine ⟨raiseError .illegal s, ?_, rfl⟩
    rw [step_engine hf (nextTurn_of_busy hs hb), takeTurn_of_sched_nil hs, engineTurn_illegal hb hd]
  | ok i =>
    have hw : ∀ r ∈ rangesRead i s, WrittenRange s r.1 r.2 := fun r hr => by
      obtain rfl | rfl := eq_of_mem_rangesRead hr
      · exact hkey
      · exact hsrc
    obtain ⟨t, hx⟩ := exec_answers hw
    exact ⟨t, step_command hf hs hb hd hx, exec_busy hx⟩

/-- Settles O8, step by step: the CMD write, the command, and the POLL, which finds BUSY = 0. -/
theorem runLineCompletesTheCommand : Obligations.RunLineCompletesTheCommand := by
  intro s t i rest hf hs hb hh hx
  have hwrite := step_writeCmd hf hs hb hh
  obtain ⟨-, hfaults, -, hhost, hsched, -⟩ := exec_hostSide hx
  have hcommand := step_command (s := { s with cmdl := encode i, busy := true, host := .poll :: rest })
    hf hs rfl (decode_encode i) hx
  have hpoll := step_poll_idle (hfaults.trans hf) (hsched.trans hs) (exec_busy hx) hhost
  refine ⟨?_, (statusWord_busy t).trans (exec_busy hx)⟩
  calc Host.Core.run core 3 s
    _ = Host.Core.run core 2 { s with cmdl := encode i, busy := true, host := .poll :: rest } :=
        run_succ_of_step hwrite 2
    _ = Host.Core.run core 1 t := run_succ_of_step hcommand 1
    _ = .next { t with host := rest, rdata := some (statusWord t) } := run_succ_of_step hpoll 0

/-- Settles O5: the turn of each mover, by its rule. -/
theorem stepRunsThePendingCommand : Obligations.StepRunsThePendingCommand := by
  refine ⟨fun s i hf ht hb hd => ?_, fun s hf ht hb => ?_, fun s h rest hf ht hh => ?_, fun s hf ht hh => ?_,
    fun s rest hf ht hh => ?_⟩
  · have hturn : step s = recordOutcome (takeTurn s) (exec i (takeTurn s)) :=
      (step_engine hf ht).trans (engineTurn_busy hb hd)
    rw [hturn, show { s with sched := s.sched.tail } = takeTurn s from rfl]
    cases exec i (takeTurn s) with
    | next t => rfl
    | fault f => exact congrArg _ (recordFault_eq_of_none (s := takeTurn s) hf f)
    | refused r => rfl
  · exact (step_engine hf ht).trans (engineTurn_idle hb)
  · exact (step_host hf ht).trans (hostTurn_cons hh)
  · exact (step_host hf ht).trans (hostTurn_nil hh)
  · exact (step_host hf ht).trans (hostTurn_poll (s := takeTurn s) hh)

/-- Settles O6: the step answers the first fault of the record. -/
theorem recordedFaultStopsTheMachine : Obligations.RecordedFaultStopsTheMachine := by
  intro s hne
  obtain ⟨f, fs, hf⟩ := List.exists_cons_of_ne_nil hne
  exact ⟨f, by simp [hf], step_faults_cons hf⟩

end
end

section
/-! The context frame of the commands (R172, R174, R180, R207, R260, R262): what an error leaves as it was and what a
completion keeps. -/

namespace Sys2Proof.Machine

theorem execCompress_keeps {s t : State} (hx : exec .compress s = .next t) :
    t.kb = s.kb ∧ t.ctx = s.ctx ∧ t.hash.nblk = s.hash.nblk ∧ t.hash.buf = s.hash.buf := by
  rcases exec_next hx with ⟨e, rfl⟩ | ⟨n, bs, h, kb, p, rfl, -, -, hc⟩
  · exact ⟨rfl, rfl, rfl, rfl⟩
  · obtain ⟨-, -, -, ⟨d, -, rfl⟩, rfl, rfl⟩ := hc
    exact ⟨rfl, rfl, rfl, rfl⟩

theorem exec_update_keeps {i : Instr} {s t : State} (hi : i = .update ∨ i = .hmacUpdate) (hx : exec i s = .next t) :
    t.kb = s.kb ∧ t.ctx = s.ctx := by
  rcases exec_next hx with ⟨e, rfl⟩ | ⟨n, bs, h, kb, p, rfl, -, -, hc⟩
  · exact ⟨rfl, rfl⟩
  · obtain rfl | rfl := hi
    all_goals
      obtain ⟨-, -, -, rfl, rfl⟩ := hc
      exact ⟨rfl, rfl⟩

theorem execFinish_keeps {s t : State} (hx : exec .finish s = .next t) :
    t.kb = s.kb ∧ t.hash.nblk = s.hash.nblk := by
  rcases exec_next hx with ⟨e, rfl⟩ | ⟨n, bs, h, kb, p, rfl, -, -, hc⟩
  · exact ⟨rfl, rfl⟩
  · obtain ⟨-, -, rfl, rfl, -⟩ := hc
    exact ⟨rfl, rfl⟩

theorem exec_base64_keeps {alph : Alphabet} {i : Instr} {s t : State} (hi : i = .b64Enc alph ∨ i = .b64Dec alph)
    (hx : exec i s = .next t) : t.hash = s.hash ∧ t.kb = s.kb ∧ t.ctx = s.ctx := by
  rcases exec_next hx with ⟨e, rfl⟩ | ⟨n, bs, h, kb, p, rfl, -, -, hc⟩
  · exact ⟨rfl, rfl, rfl⟩
  · obtain rfl | rfl := hi
    all_goals
      obtain ⟨-, -, rfl, rfl, rfl⟩ := hc
      exact ⟨rfl, rfl, rfl⟩

end Sys2Proof.Machine

open Sys2Proof Sys2Proof.Machine

/-- Settles O24, command by command. -/
theorem commandsFrameContext : Obligations.CommandsFrameContext :=
  ⟨fun _ _ => execCompress_keeps, fun _ _ _ => exec_update_keeps, fun _ _ => execFinish_keeps,
    fun _ _ _ _ => exec_base64_keeps⟩

end

section
/-! Streams of bytes through the SM3 context: chunks (R141), finalisation (R143 to R145), and the MACs built on them (R203,
R220). -/

namespace Sys2Proof.Machine

/-! ### Chunks -/

/-- Absorbing nothing leaves a context whose pending bytes are no whole block (R140). -/
theorem absorb_nil {h : HashState} (hb : h.blen < 64) : h.absorb [] = h := by
  have hcount : (h.buf ++ []).length / 64 = 0 := by rw [List.append_nil]; exact Nat.div_eq_of_lt hb
  rw [absorb_eq, hcount]
  simp [compressBlocks]

/-- Absorbing chunks in order is absorbing their concatenation (R141). -/
theorem foldl_absorb {h : HashState} (hb : h.blen < 64) (chunks : List (List Byte)) :
    chunks.foldl (fun g d => g.absorb d) h = h.absorb chunks.flatten := by
  induction chunks generalizing h with
  | nil => exact (absorb_nil hb).symm
  | cons d ds ih => rw [List.foldl_cons, ih (absorb_buf_lt d h), absorb_absorb, List.flatten_cons]

/-! ### Finalisation -/

theorem compressN_one_block (v : Chain) {s : List Byte} (h : s.length = 64) : compressN v s = cf v s := by
  have hs := compressN_block_append v h []
  rwa [List.append_nil] at hs

theorem compressN_two_blocks (v : Chain) {s : List Byte} (h : s.length = 128) :
    compressN v s = cf (cf v (s.take 64)) (s.drop 64) := by
  have hfirst : (s.take 64).length = 64 := List.length_take_of_le (by omega)
  have hsecond : (s.drop 64).length = 64 := by rw [List.length_drop, h]
  calc compressN v s
    _ = compressN v (s.take 64 ++ s.drop 64) := by rw [List.take_append_drop]
    _ = cf (cf v (s.take 64)) (s.drop 64) := by rw [compressN_block_append v hfirst, compressN_one_block _ hsecond]

theorem finalized_v_one_block {h : HashState} (hb : h.blen ≤ 55) : h.finalized.v = cf h.v h.pad :=
  compressN_one_block h.v ((pad_length (by omega)).trans (if_pos hb))

theorem finalized_v_two_blocks {h : HashState} (hlt : h.blen < 64) (hb : 56 ≤ h.blen) :
    h.finalized.v = cf (cf h.v (h.pad.take 64)) (h.pad.drop 64) :=
  compressN_two_blocks h.v ((pad_length hlt).trans (if_neg (by omega)))

/-- The byte order of a word (R12): byte k is bits 31-8k..24-8k. -/
theorem bytes32_getElem? (w : Word) (k : Fin 4) : (bytes32 w)[k.val]? = some (w.extractLsb' (24 - 8 * k.val) 8) := by
  fin_cases k <;> rfl

/-- The bytes of a chaining value are those of its words, word 0 first (R67). -/
theorem chainBytes_word (v : Chain) (i : Fin 8) : ((chainBytes v).drop (4 * i.val)).take 4 = bytes32 (chainWord v i) := by
  fin_cases i <;> rfl

theorem chainBytes_getElem? (v : Chain) (i : Fin 8) (k : Fin 4) :
    (chainBytes v)[4 * i.val + k.val]? = some ((chainWord v i).extractLsb' (24 - 8 * k.val) 8) := by
  rw [← List.getElem?_drop, ← List.getElem?_take_of_lt k.isLt, chainBytes_word, bytes32_getElem?]

/-! ### MACs -/

/-- A long key and its digest have the same key block (R201). -/
theorem keyBlock_sm3 {k : List Byte} (h : 64 < k.length) : keyBlock (sm3 k) = keyBlock k := by
  have hshort : (sm3 k).length ≤ 64 := by simp
  rw [keyBlock_long h, keyBlock_short hshort, sm3_length]

/-- A MAC streamed in chunks is that of the whole message (R203). -/
theorem outerMac_foldl_absorb (k : List Byte) (chunks : List (List Byte)) :
    outerMac (xorAll ipad (keyBlock k))
      (chunks.foldl (fun g d => g.absorb d) (innerStart (xorAll ipad (keyBlock k)))).digest =
    hmacSm3 k chunks.flatten := by
  rw [foldl_absorb (innerStart_buf_lt _), outerMac_innerStart]

end Sys2Proof.Machine

open Sys2Proof Sys2Proof.Machine

/-- Settles O32, by induction on the chunks. -/
theorem absorbIsChunkInvariant : Obligations.AbsorbIsChunkInvariant :=
  fun _ chunks hb => foldl_absorb hb chunks

/-- Settles O34: the padding is one block or two, and COMPRESS_N takes them in order. -/
theorem finalizeCompressesOnceOrTwice : Obligations.FinalizeCompressesOnceOrTwice :=
  ⟨fun _ hlt => ⟨finalized_v_one_block, finalized_v_two_blocks hlt⟩, fun h => ⟨digest_eq h, rfl, rfl⟩, fun _ => rfl,
    chainBytes_getElem?⟩

/-- Settles O36: the MAC takes of its key the key block alone. -/
theorem longKeyEqualsItsDigest : Obligations.LongKeyEqualsItsDigest := by
  intro k m h
  rw [hmacSm3, hmacSm3, keyBlock_sm3 h]

/-- Settles O37: R203 is the definition of HMAC_SM3, and the streamed MAC is `outerMac_foldl_absorb`. -/
theorem streamedMacIsHmacSm3 : Obligations.StreamedMacIsHmacSm3 :=
  ⟨fun _ _ => rfl, outerMac_foldl_absorb⟩

end

section
/-! Base64 (43_base64.md): lengths (R241, R253), the bytes of a text group by group (R252), the round trip, and the URL-safe
text from the standard one (R254). -/

namespace Sys2Proof.Machine

/-! ### The non-padding part (R250) -/

/-- The non-padding part drops the longest run of `=` at the end. -/
theorem nonPadding_eq_rdropWhile (t : List Byte) : nonPadding t = t.rdropWhile (· == padChar) := rfl

/-- A text is its non-padding part and its trailing run of `=`. -/
theorem eq_nonPadding_append_pads (t : List Byte) : ∃ k, t = nonPadding t ++ List.replicate k padChar := by
  have hrun : t.rtakeWhile (· == padChar) = List.replicate (t.rtakeWhile (· == padChar)).length padChar :=
    List.eq_replicate_of_mem fun c hc => by simpa using List.mem_rtakeWhile_imp hc
  exact ⟨_, by rw [nonPadding_eq_rdropWhile, ← hrun, List.rdropWhile_append_rtakeWhile]⟩

theorem nonPadding_getLast?_ne (t : List Byte) : (nonPadding t).getLast? ≠ some padChar := by
  intro h
  obtain ⟨hne, hlast⟩ := List.mem_getLast?_eq_getLast h
  exact List.rdropWhile_last_not (· == padChar) t hne (beq_iff_eq.mpr hlast.symm)

/-! ### Encoding (R240, R241) -/

/-- A last group of one byte: the first two characters of its 24-bit group, its missing bytes 0 (R240). -/
theorem b64Encode_one (alph : Alphabet) (a : Byte) : b64Encode alph [a] =
    [encRom alph ((a ++ 0#8 ++ 0#8).extractLsb' 18 6), encRom alph ((a ++ 0#8 ++ 0#8).extractLsb' 12 6)] ++
      groupPad alph 2 := rfl

/-- A last group of two bytes: the first three characters of its 24-bit group, its missing byte 0 (R240). -/
theorem b64Encode_two (alph : Alphabet) (a b : Byte) : b64Encode alph [a, b] =
    [encRom alph ((a ++ b ++ 0#8).extractLsb' 18 6), encRom alph ((a ++ b ++ 0#8).extractLsb' 12 6),
      encRom alph ((a ++ b ++ 0#8).extractLsb' 6 6)] ++ groupPad alph 1 := rfl

/-- A group of three bytes before any rest: its four characters before the rest's text (R240). -/
theorem b64Encode_three (alph : Alphabet) (a b c : Byte) (rest : List Byte) : b64Encode alph (a :: b :: c :: rest) =
    [encRom alph ((a ++ b ++ c).extractLsb' 18 6), encRom alph ((a ++ b ++ c).extractLsb' 12 6),
      encRom alph ((a ++ b ++ c).extractLsb' 6 6), encRom alph ((a ++ b ++ c).extractLsb' 0 6)] ++
      b64Encode alph rest := rfl

@[simp] theorem groupPad_url (k : Nat) : groupPad .url k = [] := rfl

/-- The padding of a last group is a run of `=`, of none in the URL-safe alphabet. -/
theorem groupPad_eq_replicate (alph : Alphabet) (k : Nat) : ∃ n, groupPad alph k = List.replicate n padChar := by
  cases alph with
  | std => exact ⟨k, rfl⟩
  | url => exact ⟨0, rfl⟩

@[simp] theorem nonPadding_groupPad (alph : Alphabet) (k : Nat) : nonPadding (groupPad alph k) = [] := by
  obtain ⟨n, hpad⟩ := groupPad_eq_replicate alph k
  rw [hpad, nonPadding_replicate]

/-- Three bytes more are four characters more (R241). -/
theorem encodedLength_add_three (alph : Alphabet) (n : Nat) : encodedLength alph (n + 3) = encodedLength alph n + 4 := by
  cases alph with
  | std => simp only [encodedLength]; omega
  | url =>
    rw [encodedLength_url, encodedLength_url, Nat.add_mod_right]
    omega

/-- Four characters more are three bytes more (R253). -/
theorem decodedLength_add_four (n : Nat) : decodedLength (n + 4) = decodedLength n + 3 := by
  rw [decodedLength_eq, decodedLength_eq, Nat.add_mod_right]
  omega

/-- The text of `n` bytes has the encoded length of `n` (R241). -/
theorem b64Encode_length (alph : Alphabet) (b : List Byte) :
    (b64Encode alph b).length = encodedLength alph b.length := by
  induction b using b64Encode.induct with
  | case1 => cases alph <;> rfl
  | case2 a => cases alph <;> simp [b64Encode, groupPad, encodedLength]
  | case3 a b => cases alph <;> simp [b64Encode, groupPad, encodedLength]
  | case4 a b c rest ih =>
    rw [b64Encode, List.length_append, groupChars_length, ih, Nat.add_comm]
    exact (encodedLength_add_three alph rest.length).symm

/-! ### Decoding (R251 to R253) -/

theorem decodedLength_of_ne_one {n : Nat} (h : n % 4 ≠ 1) :
    decodedLength n = 3 * (n / 4) + (if n % 4 = 0 then 0 else if n % 4 = 2 then 1 else 2) := by
  rw [decodedLength_eq]
  obtain hn | hn | hn : n % 4 = 0 ∨ n % 4 = 2 ∨ n % 4 = 3 := by omega
  all_goals simp [hn]

/-- The bytes of `n` characters are as many as the decoded length of `n` (R253). -/
theorem unpack_length (alph : Alphabet) (t : List Byte) : (unpack alph t).length = decodedLength t.length := by
  induction t using unpack.induct with
  | case1 p q r s rest ih =>
    rw [unpack, List.length_append, groupBytes_length, ih, Nat.add_comm]
    exact (decodedLength_add_four rest.length).symm
  | case2 p q r => simp [unpack, decodedLength]
  | case3 p q => simp [unpack, decodedLength]
  | case4 p => simp [unpack, decodedLength]
  | case5 => simp [unpack, decodedLength]

/-- A text that decodes does so to the bytes of its non-padding part, whose length leaves no single character over (R251). -/
theorem b64Decode_ok {alph : Alphabet} {t r : List Byte} (h : b64Decode alph t = .ok r) :
    r = unpack alph (nonPadding t) ∧ (nonPadding t).length % 4 ≠ 1 := by
  unfold b64Decode at h
  split at h
  · cases h
  · split at h
    · cases h
    · rename_i hl
      cases h
      exact ⟨rfl, hl⟩

/-- A text whose non-padding part is codes of sextets, not one more than a multiple of four, decodes (R251). -/
theorem b64Decode_codes {alph : Alphabet} {t : List Byte} {vs : List (BitVec 6)}
    (ht : nonPadding t = vs.map (encRom alph)) (hl : vs.length % 4 ≠ 1) :
    b64Decode alph t = .ok (unpack alph (vs.map (encRom alph))) := by
  rw [← ht]
  refine b64Decode_valid (fun c hc => ?_) (by rwa [ht, List.length_map])
  rw [ht] at hc
  obtain ⟨v, -, rfl⟩ := List.mem_map.mp hc
  exact decRom_encRom_ne_sentinel alph v

theorem nonPadding_codes_append_pads (alph : Alphabet) (vs : List (BitVec 6)) (k : Nat) :
    nonPadding (vs.map (encRom alph) ++ List.replicate k padChar) = vs.map (encRom alph) := by
  induction vs with
  | nil => exact nonPadding_replicate k
  | cons v vs ih => rw [List.map_cons, List.cons_append, nonPadding_encRom_cons, ih]

/-- Codes of sextets before any run of `=` (R250, R252). -/
theorem b64Decode_codes_append_pads (alph : Alphabet) {vs : List (BitVec 6)} (hl : vs.length % 4 ≠ 1) (k : Nat) :
    b64Decode alph (vs.map (encRom alph) ++ List.replicate k padChar) = .ok (unpack alph (vs.map (encRom alph))) :=
  b64Decode_codes (nonPadding_codes_append_pads alph vs k) hl

theorem b64Decode_pads (alph : Alphabet) (k : Nat) : b64Decode alph (List.replicate k padChar) = .ok [] :=
  b64Decode_codes_append_pads alph (vs := []) (by decide) k

theorem b64Decode_two (alph : Alphabet) (p q : BitVec 6) (k : Nat) :
    b64Decode alph ([encRom alph p, encRom alph q] ++ List.replicate k padChar) = .ok ((groupBytes p q 0 0).take 1) := by
  have h := b64Decode_codes_append_pads alph (vs := [p, q]) (by simp) k
  simpa only [List.map_cons, List.map_nil, unpack, sextet_encRom] using h

theorem b64Decode_three (alph : Alphabet) (p q r : BitVec 6) (k : Nat) :
    b64Decode alph ([encRom alph p, encRom alph q, encRom alph r] ++ List.replicate k padChar) =
      .ok ((groupBytes p q r 0).take 2) := by
  have h := b64Decode_codes_append_pads alph (vs := [p, q, r]) (by simp) k
  simpa only [List.map_cons, List.map_nil, unpack, sextet_encRom] using h

/-- A whole group before any text is its three bytes before what the text decodes to, or the text's error (R252). -/
theorem b64Decode_four (alph : Alphabet) (p q r s : BitVec 6) (t : List Byte) :
    b64Decode alph (encRom alph p :: encRom alph q :: encRom alph r :: encRom alph s :: t) =
      (b64Decode alph t).map (groupBytes p q r s ++ ·) := by
  have hlen (n : Nat) : (n + 1 + 1 + 1 + 1) % 4 = n % 4 := by omega
  simp only [b64Decode, nonPadding_encRom_cons, List.any_cons, beq_false_of_ne (decRom_encRom_ne_sentinel alph _),
    Bool.false_or, List.length_cons, hlen, unpack, sextet_encRom]
  split
  · rfl
  · split <;> rfl

/-! ### A group there and back (R240, R252, R254) -/

/-- The sextets of a 24-bit group give its three bytes back. -/
theorem groupBytes_sextets (x : BitVec 24) :
    groupBytes (x.extractLsb' 18 6) (x.extractLsb' 12 6) (x.extractLsb' 6 6) (x.extractLsb' 0 6) =
      [x.extractLsb' 16 8, x.extractLsb' 8 8, x.extractLsb' 0 8] := by
  have h12 : x.extractLsb' 18 6 ++ x.extractLsb' 12 6 = x.extractLsb' 12 12 :=
    BitVec.extractLsb'_append_extractLsb'_eq_extractLsb' rfl
  have h18 : x.extractLsb' 12 12 ++ x.extractLsb' 6 6 = x.extractLsb' 6 18 :=
    BitVec.extractLsb'_append_extractLsb'_eq_extractLsb' rfl
  have h24 : x.extractLsb' 6 18 ++ x.extractLsb' 0 6 = x.extractLsb' 0 24 :=
    BitVec.extractLsb'_append_extractLsb'_eq_extractLsb' rfl
  rw [groupBytes, h12, h18, h24, BitVec.extractLsb'_eq_self]

/-- The sextets of a group of three bytes give those bytes back. -/
theorem groupBytes_of_bytes (a b c : Byte) :
    groupBytes ((a ++ b ++ c).extractLsb' 18 6) ((a ++ b ++ c).extractLsb' 12 6) ((a ++ b ++ c).extractLsb' 6 6)
      ((a ++ b ++ c).extractLsb' 0 6) = [a, b, c] := by
  have ha : (a ++ b ++ c).extractLsb' 16 8 = a := by
    rw [BitVec.extractLsb'_append_eq_of_le (by decide), BitVec.extractLsb'_append_eq_left]
  have hb : (a ++ b ++ c).extractLsb' 8 8 = b := by
    rw [BitVec.extractLsb'_append_eq_of_le (by decide), BitVec.extractLsb'_append_eq_right]
  have hc : (a ++ b ++ c).extractLsb' 0 8 = c := BitVec.extractLsb'_append_eq_right
  rw [groupBytes_sextets, ha, hb, hc]

/-- The last sextet of a group lies in its last byte. -/
theorem sextet_last_of_missing (a b : Byte) : (a ++ b ++ 0#8).extractLsb' 0 6 = 0 := by
  rw [BitVec.extractLsb'_append_eq_of_add_le (by decide)]
  rfl

/-- The third sextet of a group lies in its last two bytes. -/
theorem sextet_third_of_missing (a : Byte) : (a ++ 0#8 ++ 0#8).extractLsb' 6 6 = 0 := by
  rw [BitVec.append_assoc, BitVec.extractLsb'_cast, BitVec.extractLsb'_append_eq_of_add_le (by decide)]
  rfl

/-- R254, by the groups of the encoder; the sextets missing from a last group are 0 in the text's own group. -/
theorem b64Decode_b64Encode (alph : Alphabet) (b : List Byte) : b64Decode alph (b64Encode alph b) = .ok b := by
  induction b using b64Encode.induct with
  | case1 => exact b64Decode_pads alph 0
  | case2 a =>
    have hbytes := groupBytes_of_bytes a 0#8 0#8
    rw [sextet_third_of_missing, sextet_last_of_missing] at hbytes
    obtain ⟨n, hpad⟩ := groupPad_eq_replicate alph 2
    rw [b64Encode_one, hpad, b64Decode_two, hbytes]
    rfl
  | case3 a b =>
    have hbytes := groupBytes_of_bytes a b 0#8
    rw [sextet_last_of_missing] at hbytes
    obtain ⟨n, hpad⟩ := groupPad_eq_replicate alph 1
    rw [b64Encode_two, hpad, b64Decode_three, hbytes]
    rfl
  | case4 a b c rest ih =>
    refine (b64Decode_four alph _ _ _ _ (b64Encode alph rest)).trans ?_
    rw [ih, groupBytes_of_bytes]
    rfl

/-! ### The URL-safe text (R254) -/

/-- The replacement of R254: `+` by `-` and `/` by `_`. -/
def urlChar (c : Byte) : Byte := if c = 0x2B#8 then 0x2D#8 else if c = 0x2F#8 then 0x5F#8 else c

theorem urlChar_encRom : ∀ v : BitVec 6, urlChar (encRom .std v) = encRom .url v := by decide

/-- R254, by the groups of the encoder: the replacement acts on their characters, and the `=` after them are dropped. -/
theorem b64Encode_url (b : List Byte) : b64Encode .url b = (nonPadding (b64Encode .std b)).map urlChar := by
  induction b using b64Encode.induct with
  | case1 => rfl
  | case2 a => simp [b64Encode_one, urlChar_encRom]
  | case3 a b => simp [b64Encode_two, urlChar_encRom]
  | case4 a b c rest ih => simp [b64Encode_three, urlChar_encRom, ih]

end Sys2Proof.Machine

open Sys2Proof Sys2Proof.Machine

/-- Settles O40, by the round trip of every group. -/
theorem base64RoundTrip : Obligations.Base64RoundTrip := b64Decode_b64Encode

/-- Settles O41, by the characters of every group. -/
theorem urlTextFromStandardText : Obligations.UrlTextFromStandardText := b64Encode_url

/-- Settles O42: the lengths by induction on the groups, and the text and the bytes of each kind of group. -/
theorem base64Lengths : Obligations.Base64Lengths := by
  refine ⟨b64Encode_length .std, fun b => ?_, fun alph t r hr => ?_, fun alph a b c rest => ?_,
    fun alph p q r s k t => ⟨b64Decode_pads alph k, b64Decode_two alph p q k, b64Decode_three alph p q r k, ?_⟩⟩
  · rw [b64Encode_length, encodedLength_url]
  · obtain ⟨rfl, hl⟩ := b64Decode_ok hr
    rw [unpack_length, decodedLength_of_ne_one hl]
  · cases alph with
    | std | url => exact ⟨rfl, b64Encode_one _ a, b64Encode_two _ a b, b64Encode_three _ a b c rest⟩
  · refine (b64Decode_four alph p q r s t).trans ?_
    cases b64Decode alph t with
    | error e => rfl
    | ok bs => rfl

/-- Settles O45, by the longest trailing run of `=`. -/
theorem nonPaddingDropsTheTrailingRun : Obligations.NonPaddingDropsTheTrailingRun :=
  fun t => ⟨eq_nonPadding_append_pads t, nonPadding_getLast?_ne t⟩

end

section
/-! The host's side: register reads (R21 to R31), DMEM accesses (R66, R310), and what an access sees of a live HMAC (R28, R36). -/

namespace Sys2Proof.Machine

/-! ### Register reads -/

/-- While the buffer holds no whole block, BLEN reads as its length (R30, R35). -/
theorem readRegister_blen {s : State} (hb : s.hash.blen < 64) :
    readRegister .blen s = BitVec.ofNat 32 s.hash.blen :=
  congrArg (BitVec.ofNat 32) (Nat.mod_eq_of_lt hb)

/-- A reserved offset reads 0 (R31). -/
theorem hostAccess_readReg_reserved {off : BitVec 8} (h4 : off.toNat % 4 = 0) (hres : 0x4C ≤ off.toNat) (s : State) :
    hostAccess (.readReg 32 off) s = .next { s with rdata := some 0 } := by
  have hok : regAccessOk 32 off = true := (regAccessOk_iff 32 off).mpr ⟨rfl, h4⟩
  simp only [hostAccess, hok, if_true, readOffset, regAt_reserved off hres]

/-! ### DMEM accesses -/

theorem accessFaults_busy {s : State} (hb : s.busy = true) (read : Bool) (a : Nat) :
    Fault.hazardDmemBusy ∈ accessFaults read a s := by
  simp [accessFaults, hb]

theorem accessFaults_write_busy {s : State} (hb : s.busy = true) (a : Nat) :
    accessFaults false a s = [.hazardDmemBusy] := by
  simp [accessFaults, hb]

theorem accessFaults_write_idle {s : State} (hb : s.busy = false) (a : Nat) : accessFaults false a s = [] := by
  simp [accessFaults, hb]

theorem accessFaults_read_unwritten {s : State} {a : Nat} (hb : s.busy = false) (hn : s.mem.readByte a = none) :
    accessFaults true a s = [.readUnwritten] := by
  simp [accessFaults, hb, hn]

theorem accessFaults_read_written {s : State} {a : Nat} {b : Byte} (hb : s.busy = false)
    (hw : s.mem.readByte a = some b) : accessFaults true a s = [] := by
  simp [accessFaults, hb, hw]

theorem mem_recordFault (f g : Fault) (s : State) : f ∈ (recordFault g s).faults ↔ f = g ∨ f ∈ s.faults := by
  rw [recordFault_faults]
  split
  next hg => exact ⟨.inr, fun h => h.elim (fun he => he ▸ hg) id⟩
  next => rw [List.mem_append, List.mem_singleton, or_comm]

/-- The record holds the faults put into it and those it held (R43). -/
theorem mem_recordFaults (f : Fault) (fs : List Fault) (s : State) :
    f ∈ (recordFaults fs s).faults ↔ f ∈ fs ∨ f ∈ s.faults := by
  induction fs generalizing s with
  | nil => simp [recordFaults]
  | cons g gs ih => rw [recordFaults, ih, mem_recordFault, List.mem_cons, or_left_comm, or_assoc]

theorem hostReadMem_outside {s : State} {a : Nat} (ha : s.cfg.dmemSize ≤ a) : hostReadMem a s = .refused .dmemAddress :=
  if_pos ha

theorem hostWriteMem_outside {s : State} {a : Nat} (ha : s.cfg.dmemSize ≤ a) (b : Byte) :
    hostWriteMem a b s = .refused .dmemAddress := if_pos ha

theorem hostReadMem_written {s : State} {a : Nat} {b : Byte} (ha : a < s.cfg.dmemSize) (hb : s.busy = false)
    (hw : s.mem.readByte a = some b) : hostReadMem a s = .next { s with rdata := some (b.setWidth 32) } := by
  rw [hostReadMem, if_neg (Nat.not_le.mpr ha), accessFaults_read_written hb hw, hw]

/-- A read that reaches a fault records it (R43, R66). -/
theorem hostReadMem_fault {s : State} {a : Nat} (ha : a < s.cfg.dmemSize) (hf : accessFaults true a s ≠ []) :
    hostReadMem a s = .next (recordFaults (accessFaults true a s) s) := by
  rw [hostReadMem, if_neg (Nat.not_le.mpr ha)]
  split
  · contradiction
  · rfl

theorem hostWriteMem_idle {s : State} {a : Nat} (ha : a < s.cfg.dmemSize) (hb : s.busy = false) (b : Byte) :
    hostWriteMem a b s = .next { s with mem := s.mem.writeByte a b } := by
  rw [hostWriteMem, if_neg (Nat.not_le.mpr ha), accessFaults_write_idle hb]

theorem hostWriteMem_busy {s : State} {a : Nat} (ha : a < s.cfg.dmemSize) (hb : s.busy = true) (b : Byte) :
    hostWriteMem a b s = .next (recordFault .hazardDmemBusy s) := by
  rw [hostWriteMem, if_neg (Nat.not_le.mpr ha), accessFaults_write_busy hb]
  rfl

/-! ### The secret of a live HMAC: no access shows it, depends on it or changes it (R28, R36) -/

theorem unlessBusy_replaceSecret (kb : List Byte) (v : Chain) (s s' : State) :
    unlessBusy (replaceSecret kb v s) (replaceSecret kb v s') = replaceSecret kb v (unlessBusy s s') :=
  (apply_ite (replaceSecret kb v) (s.busy = true) (dropWrite s) s').symm

/-- No register shows the secret: V reads 0 and the key block has no register (R28, R36). -/
theorem readRegister_replaceSecret {s : State} (hc : s.ctx = .hmacInner) (kb : List Byte) (v : Chain) (r : Reg) :
    readRegister r (replaceSecret kb v s) = readRegister r s := by
  cases r with
  | v i => rw [readRegister_v_live hc, readRegister_v_live (s := replaceSecret kb v s) hc]
  | _ => rfl

/-- No register write depends on the secret or changes it: a write to V is dropped (R28). -/
theorem writeRegister_replaceSecret {s : State} (hc : s.ctx = .hmacInner) (kb : List Byte) (v : Chain) (r : Reg)
    (w : Word) : writeRegister r w (replaceSecret kb v s) = replaceSecret kb v (writeRegister r w s) := by
  cases r with
  | v i =>
    rw [writeRegister_v_live hc, writeRegister_v_live (s := replaceSecret kb v s) hc]
    rfl
  | status => rw [writeRegister_status, writeRegister_status]; rfl
  | cmd | src | len | dst | kadr | klen =>
    simp only [writeRegister, ← unlessBusy_replaceSecret]
    rfl
  | outlen | nblkLo | nblkHi | blen => rfl

theorem readOffset_replaceSecret {s : State} (hc : s.ctx = .hmacInner) (kb : List Byte) (v : Chain) (off : BitVec 8) :
    readOffset off (replaceSecret kb v s) = readOffset off s := by
  unfold readOffset
  split
  · exact readRegister_replaceSecret hc kb v _
  · rfl

theorem writeOffset_replaceSecret {s : State} (hc : s.ctx = .hmacInner) (kb : List Byte) (v : Chain) (off : BitVec 8)
    (w : Word) : writeOffset off w (replaceSecret kb v s) = replaceSecret kb v (writeOffset off w s) := by
  unfold writeOffset
  split
  · exact writeRegister_replaceSecret hc kb v _ w
  · rfl

theorem recordFaults_replaceSecret (kb : List Byte) (v : Chain) (fs : List Fault) (s : State) :
    recordFaults fs (replaceSecret kb v s) = replaceSecret kb v (recordFaults fs s) := by
  induction fs generalizing s with
  | nil => rfl
  | cons f fs ih => exact ih (recordFault f s)

theorem hostReadMem_replaceSecret (kb : List Byte) (v : Chain) (a : Nat) (s : State) :
    hostReadMem a (replaceSecret kb v s) = mapNext (replaceSecret kb v) (hostReadMem a s) := by
  have hfaults : accessFaults true a (replaceSecret kb v s) = accessFaults true a s := rfl
  have hmem : (replaceSecret kb v s).mem = s.mem := rfl
  have hcfg : (replaceSecret kb v s).cfg = s.cfg := rfl
  simp only [hostReadMem, hfaults, hmem, hcfg, recordFaults_replaceSecret]
  split
  · rfl
  · split <;> rfl

theorem hostWriteMem_replaceSecret (kb : List Byte) (v : Chain) (a : Nat) (b : Byte) (s : State) :
    hostWriteMem a b (replaceSecret kb v s) = mapNext (replaceSecret kb v) (hostWriteMem a b s) := by
  have hfaults : accessFaults false a (replaceSecret kb v s) = accessFaults false a s := rfl
  have hcfg : (replaceSecret kb v s).cfg = s.cfg := rfl
  simp only [hostWriteMem, hfaults, hcfg, recordFaults_replaceSecret]
  split
  · rfl
  · split <;> rfl

/-- A host step's outcome with the secret replaced is its outcome, with the secret replaced in the state it holds. -/
theorem hostAccess_replaceSecret {s : State} (hc : s.ctx = .hmacInner) (kb : List Byte) (v : Chain) (h : HostStep) :
    hostAccess h (replaceSecret kb v s) = mapNext (replaceSecret kb v) (hostAccess h s) := by
  cases h with
  | readReg width off =>
    simp only [hostAccess, readOffset_replaceSecret hc]
    split <;> rfl
  | writeReg width off w =>
    simp only [hostAccess, writeOffset_replaceSecret hc]
    split <;> rfl
  | readMem a => exact hostReadMem_replaceSecret kb v a s
  | writeMem a b => exact hostWriteMem_replaceSecret kb v a b s
  | poll => rfl

end Sys2Proof.Machine

open Sys2Proof Sys2Proof.Machine

/-- Settles O46, register by register; BLEN reads whole below 64, and from 0x4C on every offset is reserved. -/
theorem hostReadsReturnTheRegisters : Obligations.HostReadsReturnTheRegisters := by
  intro s
  have read := fun r => hostAccess_readReg r s
  refine ⟨read .cmd, read .status, read .src, read .len, read .dst, read .kadr, read .klen, read .outlen, read .nblkLo,
    read .nblkHi, fun hb => ?_, fun off h4 hres => hostAccess_readReg_reserved h4 hres s⟩
  rw [← readRegister_blen hb]
  exact read .blen

/-- Settles O55, by the faults the access reaches. -/
theorem hostDmemAccesses : Obligations.HostDmemAccesses := by
  intro s a b hf
  refine ⟨fun ha => ⟨hostReadMem_outside ha, hostWriteMem_outside ha b⟩, fun ha hb => ⟨hostReadMem_written ha hb,
    fun hn => ?_, s.mem.writeByte a b, hostWriteMem_idle ha hb b, fun x => readByte_writeByte s.mem a x b⟩,
    fun ha hb => ⟨?_, ?_⟩⟩
  · have hreached := accessFaults_read_unwritten hb hn
    have hx := hostReadMem_fault ha (by simp [hreached])
    rw [hreached] at hx
    exact hx.trans (congrArg _ (recordFault_eq_of_none hf _))
  · have hreached := accessFaults_busy hb true a
    obtain ⟨fs, hfs⟩ := recordFaults_eq (accessFaults true a s) s
    have hmem := (mem_recordFaults _ _ s).mpr (.inl hreached)
    rw [hfs] at hmem
    exact ⟨fs, hmem, (hostReadMem_fault ha (List.ne_nil_of_mem hreached)).trans (congrArg _ hfs)⟩
  · exact (hostWriteMem_busy ha hb b).trans (congrArg _ (recordFault_eq_of_none hf _))

/-- Settles O53, host step by host step. -/
theorem liveHmacIsInvisibleToTheHost : Obligations.LiveHmacIsInvisibleToTheHost :=
  fun h _ kb v hc => hostAccess_replaceSecret hc kb v h

end

section
/-! The reset input (R300, R301): the destination range of the pending command, and what DMEM holds after the reset. -/

namespace Sys2Proof.Machine

/-! ### The destination range of the pending command (R95, R301) -/

theorem pendingDestination_illegal {s : State} {e : Illegal} (hd : decode s.cmdl = .error e) :
    pendingDestination s = (0, 0) := by
  simp only [pendingDestination, hd]

theorem pendingDestination_none {s : State} {i : Instr} (hd : decode s.cmdl = .ok i)
    (hi : i = .init ∨ i = .update ∨ i = .compress ∨ i = .hmacInit ∨ i = .hmacUpdate) :
    pendingDestination s = (0, 0) := by
  rcases hi with rfl | rfl | rfl | rfl | rfl
  all_goals simp only [pendingDestination, hd]

theorem pendingDestination_digest {s : State} {i : Instr} (hd : decode s.cmdl = .ok i)
    (hi : i = .finish ∨ i = .digest ∨ i = .hmacFinish ∨ i = .hmac) : pendingDestination s = (s.dst.toNat, 32) := by
  rcases hi with rfl | rfl | rfl | rfl
  all_goals simp only [pendingDestination, hd]

theorem pendingDestination_b64Enc {s : State} {alph : Alphabet} (hd : decode s.cmdl = .ok (.b64Enc alph)) :
    pendingDestination s = (s.dst.toNat, encodedLength alph s.len.toNat) := by
  simp only [pendingDestination, hd]

/-- B64_DEC with its source outside DMEM has no destination (notes/assumptions/9.md). -/
theorem pendingDestination_b64Dec_range {s : State} {alph : Alphabet} (hd : decode s.cmdl = .ok (.b64Dec alph))
    (hs : ¬InDmem s s.src.toNat s.len.toNat) : pendingDestination s = (0, 0) := by
  simp only [pendingDestination, hd, srcValid_eq_false hs]

theorem pendingDestination_b64Dec_decoded {s : State} {alph : Alphabet} {t r : List Byte}
    (hd : decode s.cmdl = .ok (.b64Dec alph)) (hs : InDmem s s.src.toNat s.len.toNat) (ht : srcBytes s = some t)
    (hr : b64Decode alph t = .ok r) : pendingDestination s = (s.dst.toNat, r.length) := by
  simp only [pendingDestination, hd, srcValid_of_inDmem hs, ht, hr]

/-- B64_DEC of a text that does not decode has no destination (notes/assumptions/9.md). -/
theorem pendingDestination_b64Dec_invalid {s : State} {alph : Alphabet} {t : List Byte} {e : ErrorCode}
    (hd : decode s.cmdl = .ok (.b64Dec alph)) (hs : InDmem s s.src.toNat s.len.toNat) (ht : srcBytes s = some t)
    (he : b64Decode alph t = .error e) : pendingDestination s = (0, 0) := by
  simp only [pendingDestination, hd, srcValid_of_inDmem hs, ht, he]

/-- B64_DEC of a text partly unwritten takes the most that LEN characters can decode to (notes/assumptions/9.md). -/
theorem pendingDestination_b64Dec_unwritten {s : State} {alph : Alphabet} (hd : decode s.cmdl = .ok (.b64Dec alph))
    (hs : InDmem s s.src.toNat s.len.toNat) (ht : srcBytes s = none) :
    pendingDestination s = (s.dst.toNat, decodedLength s.len.toNat) := by
  simp only [pendingDestination, hd, srcValid_of_inDmem hs, ht]

/-! ### DMEM after the reset -/

/-- A pending command's destination range reads unwritten after the reset, every other byte as before. -/
theorem readByte_memAfterReset_pending {s : State} {a n : Nat} (hb : s.busy = true)
    (hp : pendingDestination s = (a, n)) (x : Nat) :
    (memAfterReset s).readByte x = if a ≤ x ∧ x < a + n then none else s.mem.readByte x := by
  simp only [readByte_memAfterReset, hb, hp, true_and]

/-- With no destination range the reset leaves every byte as it reads, whether a command is pending or not. -/
theorem readByte_memAfterReset_kept {s : State} (hp : pendingDestination s = (0, 0)) (x : Nat) :
    (memAfterReset s).readByte x = s.mem.readByte x := by
  rw [readByte_memAfterReset, hp]
  exact if_neg (by omega)

theorem memAfterReset_idle {s : State} (hb : s.busy = false) : memAfterReset s = s.mem :=
  if_neg (by simp [hb])

end Sys2Proof.Machine

open Sys2Proof Sys2Proof.Machine

/-- Settles O57, by the destination range of each kind of pending command. -/
theorem resetInputEffect : Obligations.ResetInputEffect := by
  refine ⟨fun s => step_reset, fun s => ⟨memAfterReset s, rfl, memAfterReset_idle, fun e hd => ?_, fun i hd hi => ?_,
    fun i hb hd hi => ?_, fun alph hb hd x => ?_, fun alph hb hd => ⟨fun hs => ?_, fun hs => ⟨fun t r ht hr => ?_,
      fun t e ht he => ?_, fun ht => ?_⟩⟩⟩⟩
  · exact readByte_memAfterReset_kept (pendingDestination_illegal hd)
  · exact readByte_memAfterReset_kept (pendingDestination_none hd hi)
  · exact readByte_memAfterReset_pending hb (pendingDestination_digest hd hi)
  · have hx := readByte_memAfterReset_pending hb (pendingDestination_b64Enc hd) x
    cases alph with
    | std => exact hx
    | url => rwa [encodedLength_url] at hx
  · exact readByte_memAfterReset_kept (pendingDestination_b64Dec_range hd hs)
  · exact readByte_memAfterReset_pending hb (pendingDestination_b64Dec_decoded hd hs ht hr)
  · exact readByte_memAfterReset_kept (pendingDestination_b64Dec_invalid hd hs ht he)
  · rw [← decodedLength_eq]
    exact readByte_memAfterReset_pending hb (pendingDestination_b64Dec_unwritten hd hs ht)

/-- Settles O59: DMEM is empty, the context is that of a machine never started, and no error is reported. -/
theorem invariantHoldsAtReset : Obligations.InvariantHoldsAtReset := by
  have hcfg : State.reset.cfg.Legal := by decide
  have hmem : MemoryInv State.reset := ⟨reset_mem_wf, fun _ hc => by cases hc⟩
  have hctx : ContextInv State.reset := ⟨by decide, rfl, fun _ => rfl, fun _ => rfl, fun _ => rfl⟩
  have hstatus : StatusInv State.reset := by decide
  exact ⟨hcfg, hmem, hctx, hstatus⟩

end
